-- ==== Sys2Proof/Word.lean ====
section
/-!
DEFINITION. Words of the encoder: the byte, the 32-bit dimension, the pixel (00_scope R9) and the colour index table's
shape (10_state R24). Only types and their plainest arithmetic stand here.
-/
namespace Sys2Proof

/-- `u8`, an unsigned 8-bit value (00_scope R7). -/
abbrev Byte := BitVec 8

/-- `u32`, the width of WIDTH and HEIGHT (00_scope R5, DIM_BITS). -/
abbrev U32 := BitVec 32

/-- A pixel: four u8 channels in the order red, green, blue, alpha. Two pixels are equal iff all four channels match,
which is the equality of the structure (00_scope R9). -/
structure Pixel where
  r : Byte
  g : Byte
  b : Byte
  a : Byte
deriving DecidableEq, Repr, Inhabited

/-- A slot number of the colour index table, 0 to 63 (20_memory R50). -/
abbrev Slot := Fin 64

/-- The colour index table: exactly 64 pixels, addressed by slot number only (10_state R24, 70 R229). -/
abbrev Table := Vector Pixel 64

end Sys2Proof
end

