-- ==== Sys2Proof/Config.lean ====
section
/-!
DEFINITION. What is fixed for every encoder (00_scope R5, 10_state R27) and the free values: what the working state
holds after a START that fails its check, which the spec leaves unspecified (40 R112, 10_state R38; log entry 2).
-/
namespace Sys2Proof.Config

/-- MAGIC, the four ASCII bytes "qoif" (10_state R27). -/
def magic : List Byte := [0x71, 0x6F, 0x69, 0x66]

/-- CHANNELS, hardwired to 4 (10_state R27). -/
def channels : Byte := 4

/-- COLORSPACE, hardwired to 1 (10_state R27). -/
def colorspace : Byte := 1

/-- RUN_MAX, the largest run one RUN opcode carries (00_scope R5). -/
def runMax : Nat := 62

/-- PREV_SEED, opaque black (00_scope R5, 10_state R21). -/
def prevSeed : Pixel := ⟨0, 0, 0, 255⟩

/-- IDX_SEED, fully transparent black (00_scope R5, 10_state R24). -/
def idxSeed : Pixel := ⟨0, 0, 0, 0⟩

/-- Every slot holds IDX_SEED (40 R112). -/
def clearTable : Table := Vector.replicate 64 idxSeed

/-- Free value: PREV after the `n`-th failing START. -/
opaque freePrev : Nat → Pixel

/-- Free value: RUN after the `n`-th failing START. -/
opaque freeRun : Nat → Nat

/-- Free value: one slot of IDX after the `n`-th failing START. -/
opaque freeSlot : Nat → Slot → Pixel

/-- Free value: NPIX after the `n`-th failing START. -/
opaque freeNpix : Nat → Nat

/-- Free value: POS after the `n`-th failing START. -/
opaque freePos : Nat → Nat

end Sys2Proof.Config
end

