-- ==== Sys2Proof/Syntax.lean ====
section
/-!
DEFINITION. The forms the encoder produces, one constructor per row of spec/opcode_table.json, with the operands of the
spec's textual syntax (30_encoding R94): signed quantities are shown without their bias.
-/
namespace Sys2Proof

/-- The eight forms (00_scope R2): two frames and six opcodes. -/
inductive Instr where
  /-- HEADER w, h: the 14-byte frame that opens an encode (30_encoding R81). -/
  | header (w h : U32)
  /-- RGB r, g, b: the literal with unchanged alpha (30_encoding R89). -/
  | rgb (r g b : Byte)
  /-- RGBA r, g, b, a: the literal with all four channels (30_encoding R90). -/
  | rgba (r g b a : Byte)
  /-- INDEX s: the pixel stands in slot s (30_encoding R85). -/
  | index (s : Slot)
  /-- DIFF dr, dg, db: three deltas in [-2,1] (30_encoding R86). -/
  | diff (dr dg db : Int)
  /-- LUMA dg, dg_r, dg_b: dg in [-32,31], the other two in [-8,7] (30_encoding R87). -/
  | luma (dg dgr dgb : Int)
  /-- RUN n: n copies of the previous pixel, 1 to 62 (30_encoding R88). -/
  | run (n : Nat)
  /-- END: the 8-byte frame that closes an encode (30_encoding R82). -/
  | endMark
deriving DecidableEq, Repr

end Sys2Proof
end

