-- ==== Sys2Proof/WellFormed.lean ====
section
/-!
DEFINITION. Which terms of `Instr` are forms of the hardware: every operand in the range that 30_encoding R94 and R91
give it. Operands typed as u8, u32 or a slot number need no check.
-/
namespace Sys2Proof

/-- Every operand lies in its range (30_encoding R91, R94). -/
def Instr.wellFormed : Instr → Bool
  | .header _ _ => true
  | .rgb _ _ _ => true
  | .rgba _ _ _ _ => true
  | .index _ => true
  | .diff dr dg db =>
      decide (-2 ≤ dr ∧ dr ≤ 1) && decide (-2 ≤ dg ∧ dg ≤ 1) && decide (-2 ≤ db ∧ db ≤ 1)
  | .luma dg dgr dgb =>
      decide (-32 ≤ dg ∧ dg ≤ 31) && decide (-8 ≤ dgr ∧ dgr ≤ 7) && decide (-8 ≤ dgb ∧ dgb ≤ 7)
  | .run n => decide (1 ≤ n ∧ n ≤ Config.runMax)
  | .endMark => true

end Sys2Proof
end

