-- ==== Sys2Proof/Decode.lean ====
section
/-!
DEFINITION. From bytes to forms and back (30_encoding.md). Decoding is total on any bytes and rejects by name. The
frames are recognised by position, the opcodes by their first byte (30_encoding R84, R96; opcode_table.json, END). The
encoder is written from the layouts R81, R82 and R85 to R90.
-/
namespace Sys2Proof

/-- Where in the stream the bytes stand (30_encoding R80): the frames are told from opcodes by position only. -/
inductive Position where
  /-- the first bytes of the stream: HEADER -/
  | first
  /-- between the frames: an opcode -/
  | body
  /-- after WIDTH * HEIGHT pixels have been read: END -/
  | last
deriving DecidableEq, Repr

/-- Why bytes are no form. There is no reserved or illegal first byte (30_encoding R92). -/
inductive DecodeError where
  /-- fewer bytes than the form's length (30_encoding R83) -/
  | truncated
  /-- the first 14 bytes are not a HEADER (30_encoding R81) -/
  | notHeader
  /-- the last 8 bytes are not the END marker (30_encoding R82) -/
  | notEnd
deriving DecidableEq, Repr

/-- A decoded form with the bytes that follow it, or the name of the rejection. -/
abbrev Decoded := Except DecodeError (Instr × List Byte)

/-- The four bytes of a u32, most significant first (20_memory R59 (a)). -/
def bytesBE (v : U32) : List Byte :=
  [v.extractLsb' 24 8, v.extractLsb' 16 8, v.extractLsb' 8 8, v.extractLsb' 0 8]

/-- The u32 whose bytes, most significant first, are these four (20_memory R59 (a)). -/
def wordBE (b0 b1 b2 b3 : Byte) : U32 := b0 ++ b1 ++ b2 ++ b3

/-- The END marker: seven 0x00 and one 0x01 (30_encoding R82). -/
def endBytes : List Byte := [0, 0, 0, 0, 0, 0, 0, 1]

/-- The unsigned value of bits `lo + n - 1` down to `lo` (00_scope R8). -/
def fieldOf (v : Byte) (lo n : Nat) : Nat := (v.toNat >>> lo) % 2 ^ n

/-- The byte layout of each form (30_encoding R81, R82, R85 to R90). -/
def encode : Instr → List Byte
  | .header w h => Config.magic ++ bytesBE w ++ bytesBE h ++ [Config.channels, Config.colorspace]
  | .rgb r g b => [0xFE, r, g, b]
  | .rgba r g b a => [0xFF, r, g, b, a]
  | .index s => [BitVec.ofNat 8 (0x00 ||| s.val)]
  | .diff dr dg db =>
      [BitVec.ofNat 8 (0x40 ||| ((dr + 2).toNat <<< 4) ||| ((dg + 2).toNat <<< 2) ||| (db + 2).toNat)]
  | .luma dg dgr dgb =>
      [BitVec.ofNat 8 (0x80 ||| (dg + 32).toNat),
       BitVec.ofNat 8 (((dgr + 8).toNat <<< 4) ||| (dgb + 8).toNat)]
  | .run n => [BitVec.ofNat 8 (0xC0 ||| (n - 1))]
  | .endMark => endBytes

/-- HEADER from the first 14 bytes (30_encoding R81). -/
def decodeHeader : List Byte → Decoded
  | m0 :: m1 :: m2 :: m3 :: w0 :: w1 :: w2 :: w3 :: h0 :: h1 :: h2 :: h3 :: ch :: cs :: rest =>
      if [m0, m1, m2, m3] = Config.magic ∧ ch = Config.channels ∧ cs = Config.colorspace then
        .ok (.header (wordBE w0 w1 w2 w3) (wordBE h0 h1 h2 h3), rest)
      else .error .notHeader
  | _ => .error .truncated

/-- END from the next 8 bytes (30_encoding R82). -/
def decodeEnd : List Byte → Decoded
  | b0 :: b1 :: b2 :: b3 :: b4 :: b5 :: b6 :: b7 :: rest =>
      if [b0, b1, b2, b3, b4, b5, b6, b7] = endBytes then .ok (.endMark, rest) else .error .notEnd
  | _ => .error .truncated

/-- RGB after its tag 0xFE (30_encoding R89). -/
def decodeRgb : List Byte → Decoded
  | r :: g :: b :: rest => .ok (.rgb r g b, rest)
  | _ => .error .truncated

/-- RGBA after its tag 0xFF (30_encoding R90). -/
def decodeRgba : List Byte → Decoded
  | r :: g :: b :: a :: rest => .ok (.rgba r g b a, rest)
  | _ => .error .truncated

/-- INDEX from its one byte (30_encoding R85). -/
def decodeIndex (b0 : Byte) : Instr :=
  .index ⟨fieldOf b0 0 6, Nat.mod_lt _ (by decide)⟩

/-- DIFF from its one byte, each bias taken off (30_encoding R86, R91). -/
def decodeDiff (b0 : Byte) : Instr :=
  .diff ((fieldOf b0 4 2 : Int) - 2) ((fieldOf b0 2 2 : Int) - 2) ((fieldOf b0 0 2 : Int) - 2)

/-- LUMA from its two bytes, each bias taken off (30_encoding R87, R91). -/
def decodeLuma (b0 : Byte) : List Byte → Decoded
  | b1 :: rest =>
      .ok (.luma ((fieldOf b0 0 6 : Int) - 32) ((fieldOf b1 4 4 : Int) - 8) ((fieldOf b1 0 4 : Int) - 8), rest)
  | [] => .error .truncated

/-- RUN from its one byte (30_encoding R88, R91). -/
def decodeRun (b0 : Byte) : Instr := .run (fieldOf b0 0 6 + 1)

/-- An opcode by its first byte: the two 8-bit tags are tested before the 2-bit tags (30_encoding R84, R96). -/
def decodeOpcode : List Byte → Decoded
  | [] => .error .truncated
  | b0 :: rest =>
      if b0 = 0xFE then decodeRgb rest
      else if b0 = 0xFF then decodeRgba rest
      else if fieldOf b0 6 2 = 0 then .ok (decodeIndex b0, rest)
      else if fieldOf b0 6 2 = 1 then .ok (decodeDiff b0, rest)
      else if fieldOf b0 6 2 = 2 then decodeLuma b0 rest
      else .ok (decodeRun b0, rest)

/-- Decode the form at a position of the stream (30_encoding R80). -/
def decodeAt : Position → List Byte → Decoded
  | .first, bs => decodeHeader bs
  | .body, bs => decodeOpcode bs
  | .last, bs => decodeEnd bs

/-- Where in the stream a form stands (30_encoding R80). -/
def Instr.position : Instr → Position
  | .header _ _ => .first
  | .rgb _ _ _ => .body
  | .rgba _ _ _ _ => .body
  | .index _ => .body
  | .diff _ _ _ => .body
  | .luma _ _ _ => .body
  | .run _ => .body
  | .endMark => .last

/-- The length of a form in bytes (20_memory R61, 30_encoding R83). -/
def Instr.size : Instr → Nat
  | .header _ _ => 14
  | .rgb _ _ _ => 4
  | .rgba _ _ _ _ => 5
  | .index _ => 1
  | .diff _ _ _ => 1
  | .luma _ _ _ => 2
  | .run _ => 1
  | .endMark => 8

/-- The bytes of a table row's word: bits 7 to 0 are the first byte, and every bit above `nbits` is 0, up to the longest
form's 14 bytes. -/
def tableBytes (nbits w : Nat) : List Byte :=
  (List.range 14).map fun k => BitVec.ofNat 8 ((w % 2 ^ nbits) >>> (8 * k))

/-- The bytes of a word that the table numbers with byte 0 most significant, as it does HEADER's and END's rows
(opcode_table.json, match_mask_over). -/
def tableBytesBE (nbits w : Nat) : List Byte :=
  (List.range (nbits / 8)).map fun k => BitVec.ofNat 8 (w >>> (nbits - 8 * (k + 1)))

/-- The form of the first reading that is one. -/
def firstReading : List Decoded → Option Instr
  | [] => none
  | .ok (i, _) :: _ => some i
  | .error _ :: readings => firstReading readings

/-- The form a table row's word stands for. A word carries no position in the stream, so a row as long as a frame whose
bytes, in either numbering, are that frame is read as the frame, and every other word as an opcode (log entry 7). -/
def decodeTableWord (nbits w : Nat) : Option Instr :=
  firstReading
    [decodeAt .first (tableBytes nbits w), decodeAt .last (tableBytes nbits w),
     decodeAt .first (tableBytesBE nbits w), decodeAt .last (tableBytesBE nbits w),
     decodeAt .body (tableBytes nbits w)]

end Sys2Proof
end

