-- ==== Sys2Proof/Machine/Operands.lean ====
section
/-!
DEFINITION. What the operands of the opcodes are computed from: the signed reading, the wrapped deltas, the luma
differences and the hash (00_scope R10, 41 R124 to R126, 43 R150).
-/
namespace Sys2Proof.Machine

/-- `sint8`, the signed reading of an 8-bit pattern (00_scope R10). -/
def sint8 (v : Nat) : Int := if v ≤ 127 then (v : Int) else (v : Int) - 256

/-- `(c - p) mod 256`, the wrapped difference before its signed reading (41 R124, 70 R229). -/
def wrapDiff (c p : Byte) : Nat := (c.toNat + (256 - p.toNat)) % 256

/-- Delta8(c, p): the current channel is the minuend (41 R124). -/
def delta8 (c p : Byte) : Int := sint8 (wrapDiff c p)

/-- The three colour deltas of a pixel step; alpha has none (41 R124). -/
structure Deltas where
  dr : Int
  dg : Int
  db : Int
deriving DecidableEq, Repr

/-- Delta(cur, prev) (41 R124). -/
def delta (cur prev : Pixel) : Deltas := ⟨delta8 cur.r prev.r, delta8 cur.g prev.g, delta8 cur.b prev.b⟩

/-- dg_r, an exact difference of signed deltas, not wrapped (41 R126). -/
def Deltas.dgr (d : Deltas) : Int := d.dr - d.dg

/-- dg_b, an exact difference of signed deltas, not wrapped (41 R126). -/
def Deltas.dgb (d : Deltas) : Int := d.db - d.dg

/-- The sum of products of 43 R150, exact. -/
def hashSum (p : Pixel) : Nat := p.r.toNat * 3 + p.g.toNat * 5 + p.b.toNat * 7 + p.a.toNat * 11

/-- Hash(p) (43 R150). -/
def hashOf (p : Pixel) : Slot := ⟨hashSum p % 64, Nat.mod_lt _ (by decide)⟩

/-- The channel that a delta leads to, modulo 256 (44 R163). The encoder performs none of this; it serves the derived
reader and the placing of an instruction. -/
def addDelta (p : Byte) (d : Int) : Byte := BitVec.ofInt 8 ((p.toNat : Int) + d)

end Sys2Proof.Machine
end

