-- ==== Sys2Proof/Machine/Flags.lean ====
section
/-!
DEFINITION. The hardware has no status flags (10_state R35); what a pixel step evaluates instead are combinational
predicates of cur, PREV and IDX. They are defined here, with the six conditions of the priority chain (41 R122) and the
selector that walks it (41 R120).
-/
namespace Sys2Proof.Machine

/-- SmallOk (41 R127). -/
abbrev SmallOk (d : Deltas) : Prop :=
  (-2 ≤ d.dr ∧ d.dr ≤ 1) ∧ (-2 ≤ d.dg ∧ d.dg ≤ 1) ∧ (-2 ≤ d.db ∧ d.db ≤ 1)

/-- LumaOk (41 R127). -/
abbrev LumaOk (d : Deltas) : Prop :=
  (-32 ≤ d.dg ∧ d.dg ≤ 31) ∧ (-8 ≤ d.dgr ∧ d.dgr ≤ 7) ∧ (-8 ≤ d.dgb ∧ d.dgb ≤ 7)

/-- The lookup hits: the pixel's own slot holds it, in all four channels (43 R151). -/
abbrev Hits (cur : Pixel) (idx : Table) : Prop := idx.get (hashOf cur) = cur

/-- The alpha gate (44 R160). -/
abbrev AlphaSame (cur prev : Pixel) : Prop := cur.a = prev.a

/-- Order 1 of 41 R122: a run pixel. -/
abbrev ChoosesRun (cur prev : Pixel) : Prop := cur = prev

/-- Order 2 of 41 R122: INDEX. -/
abbrev ChoosesIndex (cur prev : Pixel) (idx : Table) : Prop := ¬ ChoosesRun cur prev ∧ Hits cur idx

/-- Not 1, not 2 and equal alpha: what orders 3, 4 and 5 of 41 R122 share (44 R160). -/
abbrev PassesGate (cur prev : Pixel) (idx : Table) : Prop :=
  ¬ ChoosesRun cur prev ∧ ¬ Hits cur idx ∧ AlphaSame cur prev

/-- Order 3 of 41 R122: DIFF. -/
abbrev ChoosesDiff (cur prev : Pixel) (idx : Table) : Prop :=
  PassesGate cur prev idx ∧ SmallOk (delta cur prev)

/-- Order 4 of 41 R122: LUMA. -/
abbrev ChoosesLuma (cur prev : Pixel) (idx : Table) : Prop :=
  PassesGate cur prev idx ∧ ¬ SmallOk (delta cur prev) ∧ LumaOk (delta cur prev)

/-- Order 5 of 41 R122: RGB. -/
abbrev ChoosesRgb (cur prev : Pixel) (idx : Table) : Prop :=
  PassesGate cur prev idx ∧ ¬ SmallOk (delta cur prev) ∧ ¬ LumaOk (delta cur prev)

/-- Order 6 of 41 R122: RGBA. -/
abbrev ChoosesRgba (cur prev : Pixel) (idx : Table) : Prop :=
  ¬ ChoosesRun cur prev ∧ ¬ Hits cur idx ∧ ¬ AlphaSame cur prev

/-- The opcode the selector gives a non-run pixel: the chain of 41 R120, in its order, with the operands of R152, R161,
R162, R170 and R171. -/
def select (cur prev : Pixel) (idx : Table) : Instr :=
  if Hits cur idx then .index (hashOf cur)
  else if AlphaSame cur prev then
    if SmallOk (delta cur prev) then .diff (delta cur prev).dr (delta cur prev).dg (delta cur prev).db
    else if LumaOk (delta cur prev) then .luma (delta cur prev).dg (delta cur prev).dgr (delta cur prev).dgb
    else .rgb cur.r cur.g cur.b
  else .rgba cur.r cur.g cur.b cur.a

/-- The unsigned form of a DIFF range test, on the pattern `du = (c - p) mod 256` (41 R128). -/
abbrev SmallOkUnsigned (du : Nat) : Prop := (du + 2) % 256 < 4

/-- The unsigned form of LUMA's dg test (41 R128). -/
abbrev GreenOkUnsigned (dgu : Nat) : Prop := (dgu + 32) % 256 < 64

/-- The field `(dxu - dgu + 8) mod 256` of the unsigned LUMA tests (41 R128). -/
def lumaFieldUnsigned (dxu dgu : Nat) : Nat := (dxu + (256 - dgu) + 8) % 256

/-- The unsigned form of LUMA's dg_r and dg_b tests (41 R128). -/
abbrev OffsetOkUnsigned (dxu dgu : Nat) : Prop := lumaFieldUnsigned dxu dgu < 16

/-- Hash from the channels' low six bits (41 R128). -/
def hashLow (p : Pixel) : Nat :=
  (p.r.toNat % 64 * 3 + p.g.toNat % 64 * 5 + p.b.toNat % 64 * 7 + p.a.toNat % 64 * 11) % 64

end Sys2Proof.Machine
end

