-- ==== Sys2Proof/Machine/State.lean ====
section
/-!
DEFINITION. The state of one encoder: the tuple of 10_state R20 with the input space IN, and two fields of the model's
own. Plain data only.
-/
namespace Sys2Proof.Machine

/-- PHASE, with the values of 10_state R29. -/
inductive Phase where
  /-- 0: after power-on reset; no encode has been started -/
  | idle
  /-- 1: an encode is in progress -/
  | busy
  /-- 2: FINISH has run; OUT holds the complete output -/
  | done
  /-- 3: START found the input malformed -/
  | fault
deriving DecidableEq, Repr

/-- ERR, with the values of 10_state R34. -/
inductive ErrorCause where
  /-- 0: NONE -/
  | noError
  /-- 1: MALFORMED_INPUT -/
  | malformedInput
deriving DecidableEq, Repr

/-- Why the model stops with a fault. The hardware's one exception, MalformedInput, is no fault of the model: it is
taken, as a next state (60 R196). -/
inductive Fault where
  /-- A pixel fetch reaches beyond LEN, where 20_memory R52 leaves MemRead undefined. Raised by the pixel step and by the
  forms that fetch the current pixel. Safe: the machine stops; no encode that START began reaches it. -/
  | inputOutOfRange
deriving DecidableEq, Repr

/-- Why the model refuses. -/
inductive Refusal where
  /-- The instruction has no meaning in the model. Raised by `exec` only. Safe. -/
  | notModelled (mnemonic : String)
  /-- A pixel opcode where no pixel step is enabled, or a step in BUSY with POS > NPIX, where 10_state R32 enables none.
  Raised by the five pixel opcodes and by `step`. Safe: no such state belongs to an encode. -/
  | notEnabled
  /-- A pixel opcode that is not the outcome 41 R122 gives the current pixel, or with operands other than its rule names
  (R152, R161, R162, R170, R171), or while a run is still pending (42 R143). Raised by the five pixel opcodes. Safe:
  the selector never chooses it there. -/
  | notOutcome
  /-- RUN n where n is not the value of the RUN register or lies outside 1 to 62, the precondition of 42 R142. Raised by
  RUN. Safe. -/
  | noPendingRun
  /-- A host move while PHASE is BUSY or a START waits to be taken (70 R226, 93 U3: refuse). Raised by the host's moves
  in HostPort.lean. Safe: the spec has no such move. -/
  | hostMayNot
deriving DecidableEq, Repr

/-- The complete state of one encoder (10_state R20). -/
structure State where
  /-- PREV, the previous pixel (10_state R21) -/
  prev : Pixel
  /-- RUN, the run counter (10_state R22) -/
  run : Nat
  /-- IDX, the colour index table (10_state R24) -/
  idx : Table
  /-- OUT, the output stream, first byte first; OUT_LEN is its length (10_state R28) -/
  out : List Byte
  /-- WIDTH (10_state R25) -/
  width : U32
  /-- HEIGHT (10_state R25) -/
  height : U32
  /-- LEN, the length in bytes of the input buffer (10_state R26) -/
  len : Nat
  /-- NPIX, the pixel count (10_state R30) -/
  npix : Nat
  /-- POS, the pixel position, the program-counter analogue (10_state R31) -/
  pos : Nat
  /-- PHASE (10_state R29) -/
  phase : Phase
  /-- ERR, the error cause (10_state R34) -/
  err : ErrorCause
  /-- IN, the input space, as (address, byte) pairs in the canonical form of `Memory.wf` (20_memory R50, R51) -/
  input : List Host.Cell
  /-- The model's own: the host has issued START and the encoder has not taken it yet (10_state R32; log entry 4). -/
  startPending : Bool
  /-- The model's own: how many free values have been drawn (log entry 2). -/
  free : Nat
deriving DecidableEq, Repr

/-- Power-on reset (70 R220): PHASE = IDLE, ERR = 0, OUT empty. The spec leaves PREV, RUN, IDX, NPIX, POS, WIDTH, HEIGHT
and LEN unspecified; the zeros here are the model's choice (log entry 1). IN lists nothing. -/
def State.reset : State where
  prev := ⟨0, 0, 0, 0⟩
  run := 0
  idx := Vector.replicate 64 ⟨0, 0, 0, 0⟩
  out := []
  width := 0
  height := 0
  len := 0
  npix := 0
  pos := 0
  phase := .idle
  err := .noError
  input := []
  startPending := false
  free := 0

end Sys2Proof.Machine
end

