-- ==== Sys2Proof/Machine/Ops.lean ====
section
/-!
DEFINITION. The named operations over the three spaces and the registers, and taking the one exception. Every meaning and
every step is written over these.
-/
namespace Sys2Proof.Machine

/-- What every meaning and step answers. -/
abbrev Result := Host.Outcome State Fault Refusal

/-- Go on with the next state, or stop as the first part stopped. -/
def andThen (o : Result) (f : State → Result) : Result :=
  match o with
  | .next s => f s
  | .fault r => .fault r
  | .refused r => .refused r

/-! ### The input space IN -/

/-- What an address of IN that nothing has written reads as (log entry 3). -/
def Memory.unlisted : Byte := 0

/-- The byte at an address. -/
def Memory.read : List Host.Cell → Nat → Byte
  | [], _ => Memory.unlisted
  | (k, v) :: m, a => if k = a then v else Memory.read m a

/-- List a byte at its place among rising addresses, in the place of an entry of the same address. -/
def Memory.place (a : Nat) (b : Byte) : List Host.Cell → List Host.Cell
  | [] => [(a, b)]
  | (k, v) :: m =>
      if a < k then (a, b) :: (k, v) :: m
      else if a = k then (a, b) :: m
      else (k, v) :: Memory.place a b m

/-- Take the entry of an address out. -/
def Memory.erase (a : Nat) : List Host.Cell → List Host.Cell
  | [] => []
  | (k, v) :: m => if k = a then m else (k, v) :: Memory.erase a m

/-- Write a byte, keeping the canonical form: a byte equal to what an unlisted address reads as is not listed. -/
def Memory.write (m : List Host.Cell) (a : Nat) (b : Byte) : List Host.Cell :=
  if b = Memory.unlisted then Memory.erase a m else Memory.place a b m

/-- Write bytes at rising addresses. -/
def Memory.writeAll (m : List Host.Cell) (a : Nat) : List Byte → List Host.Cell
  | [] => m
  | b :: bs => Memory.writeAll (Memory.write m a b) (a + 1) bs

/-- An address lies above the one before it, if there is one. -/
def Memory.above : Option Nat → Nat → Bool
  | none, _ => true
  | some l, k => decide (l < k)

/-- Every entry lies above `low` (when there is one), addresses rise strictly, and no entry is unlisted's value. -/
def Memory.wfFrom : Option Nat → List Host.Cell → Bool
  | _, [] => true
  | low, (k, v) :: m =>
      Memory.above low k && decide (v ≠ Memory.unlisted) && Memory.wfFrom (some k) m

/-- The canonical form of a memory. -/
def Memory.wf (m : List Host.Cell) : Bool := Memory.wfFrom none m

/-- MemRead(IN, addr, n), defined only for addr + n <= LEN (20_memory R52). -/
def State.memRead (s : State) (addr n : Nat) : Option (List Byte) :=
  if addr + n ≤ s.len then some ((List.range n).map fun k => Memory.read s.input (addr + k)) else none

/-- FetchPixel(i): red, green, blue, alpha from 4i, 4i+1, 4i+2, 4i+3 (41 R121, 20_memory R51). -/
def State.fetchPixel (s : State) (i : Nat) : Option Pixel :=
  match s.memRead (4 * i) 4 with
  | some [r, g, b, a] => some ⟨r, g, b, a⟩
  | _ => none

/-! ### The index space IDX -/

/-- Read one slot (20_memory R55). -/
def State.slot (s : State) (i : Slot) : Pixel := s.idx.get i

/-- Write one slot (20_memory R55). -/
def writeSlot (t : Table) (i : Slot) (p : Pixel) : Table := t.set i.val p i.isLt

/-! ### The output space OUT -/

/-- OUT_LEN (10_state R28). -/
def State.outLen (s : State) : Nat := s.out.length

/-- The byte of OUT at an address, if there is one (20_memory R50). -/
def State.outByte (s : State) (a : Nat) : Option Byte := s.out[a]?

/-- Emit(b): append one byte to OUT (20_memory R56). -/
def State.emitByte (s : State) (b : Byte) : State := { s with out := s.out ++ [b] }

/-- Emit(b0, b1, ...): append the bytes in order (00_scope R11, 20_memory R61). -/
def State.emit (s : State) : List Byte → State
  | [] => s
  | b :: bs => (s.emitByte b).emit bs

/-! ### The registers -/

/-- The state update after a non-run opcode: PREV <- cur, then IDX[Hash(cur)] <- cur (41 R123, 43 R153). -/
def State.remember (s : State) (cur : Pixel) : State :=
  { s with prev := cur, idx := writeSlot s.idx (hashOf cur) cur }

/-- POS <- POS + 1 (41 R129). -/
def State.advance (s : State) : State := { s with pos := s.pos + 1 }

/-- A pixel step is enabled (10_state R32, 41 R120). -/
abbrev State.PixelEnabled (s : State) : Prop := s.phase = .busy ∧ s.pos < s.npix

/-- What the five pixel opcodes share: in a pixel step whose pending run is flushed, for a current pixel of which the
opcode is the outcome, append the opcode's bytes and remember the pixel (41 R122, R123, 42 R143). -/
def State.asOutcome (s : State) (opcode : Instr) (isOutcome : Pixel → Bool) : Result :=
  if s.PixelEnabled then
    match s.fetchPixel s.pos with
    | none => .fault .inputOutOfRange
    | some cur =>
        if s.run = 0 ∧ isOutcome cur = true then .next ((s.emit (encode opcode)).remember cur)
        else .refused .notOutcome
  else .refused .notEnabled

/-! ### START's two ends -/

/-- The length check, on exact naturals (40 R111). -/
abbrev State.LengthOk (s : State) : Prop := s.len = 4 * s.width.toNat * s.height.toNat

/-- The initialisation of the working state by a START whose check passes (40 R110, R112). -/
def State.initWorking (s : State) : State :=
  { s with
    err := .noError
    npix := s.width.toNat * s.height.toNat
    pos := 0
    prev := Config.prevSeed
    run := 0
    idx := Config.clearTable }

/-- Taking MalformedInput (60 R190, R191, R196): OUT empty, ERR = 1, PHASE = FAULT; the working state becomes
unspecified, as free values (40 R112, 10_state R38; log entry 2). LEN, WIDTH, HEIGHT and IN are left. -/
def State.takeMalformedInput (s : State) : State :=
  { s with
    out := []
    err := .malformedInput
    phase := .fault
    prev := Config.freePrev s.free
    run := Config.freeRun s.free
    idx := Vector.ofFn (Config.freeSlot s.free)
    npix := Config.freeNpix s.free
    pos := Config.freePos s.free
    free := s.free + 1 }

end Sys2Proof.Machine
end

