-- ==== Sys2Proof/Machine/Difference.lean ====
section
/-!
DEFINITION. The difference opcodes: DIFF (44 R161) and LUMA (44 R162).
-/
namespace Sys2Proof.Machine

/-- EmitDIFF(dr, dg, db), the outcome of a pixel step with a miss, equal alpha and SmallOk, for (dr, dg, db) =
Delta(cur, PREV) (44 R161). -/
def execDiff (dr dg db : Int) (s : State) : Result :=
  s.asOutcome (.diff dr dg db) fun cur =>
    decide (ChoosesDiff cur s.prev s.idx ∧ delta cur s.prev = ⟨dr, dg, db⟩)

/-- EmitLUMA(dg, dg_r, dg_b), the outcome of a pixel step with a miss, equal alpha, not SmallOk and LumaOk, for the
differences of Delta(cur, PREV) (44 R162). -/
def execLuma (dg dgr dgb : Int) (s : State) : Result :=
  s.asOutcome (.luma dg dgr dgb) fun cur =>
    decide (ChoosesLuma cur s.prev s.idx ∧ (delta cur s.prev).dg = dg ∧ (delta cur s.prev).dgr = dgr ∧
      (delta cur s.prev).dgb = dgb)

end Sys2Proof.Machine
end

