-- ==== Sys2Proof/Machine/Framer.lean ====
section
/-!
DEFINITION. The two frames (FRM): HEADER (40 R113) and END (46 R181). Each appends its bytes and reads and writes no
other state, in any state.
-/
namespace Sys2Proof.Machine

/-- EmitHEADER(w, h) (40 R113): the 14 bytes of 30_encoding R81. -/
def execHeader (w h : U32) (s : State) : Result := .next (s.emit (encode (.header w h)))

/-- EmitEND (46 R181): the 8 bytes of 30_encoding R82. -/
def execEndMark (s : State) : Result := .next (s.emit (encode .endMark))

end Sys2Proof.Machine
end

