-- ==== Sys2Proof/Machine/IndexUnit.lean ====
section
/-!
DEFINITION. The hash-index unit's opcode (HIX): INDEX (43 R152).
-/
namespace Sys2Proof.Machine

/-- EmitINDEX(s), the outcome of a pixel step with cur != PREV and a lookup hit, s = Hash(cur) (43 R152). -/
def execIndex (slot : Slot) (s : State) : Result :=
  s.asOutcome (.index slot) fun cur => decide (ChoosesIndex cur s.prev s.idx ∧ slot = hashOf cur)

end Sys2Proof.Machine
end

