-- ==== Sys2Proof/Machine/Literal.lean ====
section
/-!
DEFINITION. The literal opcodes: RGB (45 R170) and RGBA (45 R171).
-/
namespace Sys2Proof.Machine

/-- EmitRGB(cur), the outcome of a pixel step with a miss, equal alpha, not SmallOk and not LumaOk (45 R170). -/
def execRgb (r g b : Byte) (s : State) : Result :=
  s.asOutcome (.rgb r g b) fun cur =>
    decide (ChoosesRgb cur s.prev s.idx ∧ cur.r = r ∧ cur.g = g ∧ cur.b = b)

/-- EmitRGBA(cur), the outcome of a pixel step with a miss and changed alpha (45 R171). -/
def execRgba (r g b a : Byte) (s : State) : Result :=
  s.asOutcome (.rgba r g b a) fun cur => decide (ChoosesRgba cur s.prev s.idx ∧ cur = ⟨r, g, b, a⟩)

end Sys2Proof.Machine
end

