-- ==== Sys2Proof/Machine/RunLength.lean ====
section
/-!
DEFINITION. The run-length encoder's opcode (RLE): RUN, which is the flush of the pending run (42 R142).
-/
namespace Sys2Proof.Machine

/-- EmitRUN(n) and RUN <- 0 (42 R142): n is the value of the RUN register, between 1 and 62. PREV and IDX are neither
read nor written. -/
def execRun (n : Nat) (s : State) : Result :=
  if n = s.run ∧ 1 ≤ n ∧ n ≤ Config.runMax then .next { s.emit (encode (.run n)) with run := 0 }
  else .refused .noPendingRun

end Sys2Proof.Machine
end

