-- ==== Sys2Proof/Machine/Dispatch.lean ====
section
/-!
DEFINITION. One arm per constructor of `Instr`, each one call of that form's meaning.
-/
namespace Sys2Proof.Machine

def exec (i : Instr) (s : State) : Host.Outcome State Fault Refusal :=
  match i with
  | .header w h => Sys2Proof.Machine.execHeader w h s
  | .rgb r g b => Sys2Proof.Machine.execRgb r g b s
  | .rgba r g b a => Sys2Proof.Machine.execRgba r g b a s
  | .index slot => Sys2Proof.Machine.execIndex slot s
  | .diff dr dg db => Sys2Proof.Machine.execDiff dr dg db s
  | .luma dg dgr dgb => Sys2Proof.Machine.execLuma dg dgr dgb s
  | .run n => Sys2Proof.Machine.execRun n s
  | .endMark => Sys2Proof.Machine.execEndMark s

end Sys2Proof.Machine
end

