-- ==== Sys2Proof/Machine/Encoder.lean ====
section
/-!
DEFINITION. The three steps of the encoder (00_scope R15), written over `exec`: START (40 R110), the pixel step
(41 R120) with the run-length encoder's three acts (42 R140), and FINISH (46 R180).
-/
namespace Sys2Proof.Machine

/-- Flush: the pending run becomes one RUN, RUN <- 0 (42 R142; the pseudo-form FLUSH of 30_encoding R95). -/
def flush (s : State) : Result := exec (.run s.run) s

/-- FlushIfPending (42 R143). -/
def flushIfPending (s : State) : Result := if 0 < s.run then flush s else .next s

/-- RunAccumulate: count the pixel, flush when the count has reached 62 (42 R141). -/
def runAccumulate (s : State) : Result :=
  if s.run + 1 = Config.runMax then flush { s with run := s.run + 1 } else .next { s with run := s.run + 1 }

/-- What a pixel that differs from PREV does: flush, then the selected opcode (41 R120). -/
def encodePixel (cur : Pixel) (s : State) : Result :=
  andThen (flushIfPending s) fun s1 => exec (select cur s1.prev s1.idx) s1

/-- The pixel step (41 R120). -/
def pixelStep (s : State) : Result :=
  match s.fetchPixel s.pos with
  | none => .fault .inputOutOfRange
  | some cur =>
      andThen (if cur = s.prev then runAccumulate s else encodePixel cur s) fun s1 => .next s1.advance

/-- FINISH (46 R180, R182). -/
def finish (s : State) : Result :=
  andThen (flushIfPending s) fun s1 =>
    andThen (exec .endMark s1) fun s2 => .next { s2 with phase := .done }

/-- What START finds: the request is taken and OUT emptied (40 R110, R112). -/
def State.startCleared (s : State) : State := { s with startPending := false, out := [] }

/-- START (40 R110). -/
def start (s : State) : Result :=
  if s.LengthOk then
    andThen (exec (.header s.width s.height) s.startCleared.initWorking) fun s1 =>
      .next { s1 with phase := .busy }
  else .next s.startCleared.takeMalformedInput

/-- The step that 10_state R32 enables; at rest with no START issued, none, and the encoder stays as it is. -/
def enabledStep (s : State) : Result :=
  match s.phase with
  | .busy =>
      if s.pos < s.npix then pixelStep s
      else if s.pos = s.npix then finish s
      else .refused .notEnabled
  | .idle | .done | .fault => if s.startPending then start s else .next s

end Sys2Proof.Machine
end

