-- ==== Sys2Proof/Machine/HostPort.lean ====
section
/-!
DEFINITION. The host's moves (70 R223, R226): what it may do while the encoder is at rest. A move the spec has not is
refused (93 U3; log entry 6). They are no steps of the encoder.
-/
namespace Sys2Proof.Machine

/-- The host may move: PHASE is IDLE, DONE or FAULT, and no START waits to be taken (70 R226). -/
abbrev State.HostMay (s : State) : Prop := s.phase ≠ .busy ∧ s.startPending = false

/-- A host move that changes the state. -/
def State.hostMove (s : State) (t : State) : Result := if s.HostMay then .next t else .refused .hostMayNot

/-- The host writes one byte of IN (20_memory R50). -/
def hostWriteIn (addr : Nat) (b : Byte) (s : State) : Result :=
  s.hostMove { s with input := Memory.write s.input addr b }

/-- The host places pixel data in IN from address 0 and writes LEN with its length (70 R223 (1) and (2)). -/
def hostLoad (bytes : List Byte) (s : State) : Result :=
  s.hostMove { s with input := Memory.writeAll s.input 0 bytes, len := bytes.length }

/-- The host writes LEN (70 R223 (2)). -/
def hostWriteLen (n : Nat) (s : State) : Result := s.hostMove { s with len := n }

/-- The host writes WIDTH and HEIGHT (70 R223 (3)). -/
def hostWriteSize (w h : U32) (s : State) : Result := s.hostMove { s with width := w, height := h }

/-- The host issues START (40 R110); the next step takes it. -/
def hostStart (s : State) : Result := s.hostMove { s with startPending := true }

/-- What the host reads of OUT: its bytes when PHASE = DONE, and nothing at any other time (10_state R28, 20_memory R57,
70 R226). PHASE alone decides: while a START waits to be taken at DONE the previous output is still read (DESIGN CHOICE,
log entry 10). -/
def hostReadOut (s : State) : Option (List Byte) := if s.phase = .done then some s.out else none

/-- What the host reads of OUT_LEN: as for OUT (20_memory R57; log entry 10). -/
def hostReadOutLen (s : State) : Option Nat := if s.phase = .done then some s.outLen else none

/-- What the host reads of ERR: its value when PHASE = FAULT, the one moment at which 70 R226 lists the read. PHASE alone
decides: while a START waits to be taken in FAULT the previous cause is still read (DESIGN CHOICE, log entry 10). -/
def hostReadErr (s : State) : Option ErrorCause := if s.phase = .fault then some s.err else none

end Sys2Proof.Machine
end

