-- ==== Sys2Proof/Machine/Placing.lean ====
section
/-!
DEFINITION. A state whose next step runs a given form (log entry 8). The encoder fetches no instructions (00_scope R2):
the form a step runs is selected by PHASE, POS, RUN and the pixel at POS, so these are what is placed. Nothing of the
encoder's own behaviour is defined here.
-/
namespace Sys2Proof.Machine

/-- A pixel that is not `cur` and may stand in its slot. -/
def otherPixel (cur : Pixel) : Pixel := if cur = Config.idxSeed then ⟨5, 5, 5, 255⟩ else Config.idxSeed

/-- `cur` is the pixel at POS, and the next step is its pixel step, with no run pending. -/
def State.placePixel (s : State) (cur : Pixel) : State :=
  { s with
    input := Memory.writeAll s.input (4 * s.pos) [cur.r, cur.g, cur.b, cur.a]
    len := 4 * (s.pos + 1)
    npix := s.pos + 1
    phase := .busy
    run := 0 }

/-- As `placePixel`, with a lookup that misses. -/
def State.placeMiss (s : State) (cur : Pixel) : State :=
  let t := s.placePixel cur
  if Hits cur t.idx then { t with idx := writeSlot t.idx (hashOf cur) (otherPixel cur) } else t

/-- The pixel three deltas lead to from PREV, alpha unchanged (44 R163). -/
def State.deltaPixel (s : State) (dr dg db : Int) : Pixel :=
  ⟨addDelta s.prev.r dr, addDelta s.prev.g dg, addDelta s.prev.b db, s.prev.a⟩

/-- A pixel of hash `slot`: 3 * 43 = 129 is 1 modulo 64. -/
def slotPixel (slot : Slot) : Pixel := ⟨BitVec.ofNat 8 (slot.val * 43 % 64), 0, 0, 0⟩

/-- The state whose next step is FINISH with a run of `n` pending. -/
def State.placeFinish (s : State) (n : Nat) : State := { s with phase := .busy, pos := s.npix, run := n }

/-- The state whose next step runs a form. RUN 62 is placed at the cap of a run pixel; a shorter RUN at FINISH. A form
that no pixel of any state is encoded by (30_encoding R93 (d), (e)) is placed as its pixel. -/
def State.placeInstr (s : State) : Instr → State
  | .header w h =>
      { s with
        phase := if s.phase = .busy then .idle else s.phase
        startPending := true
        width := w
        height := h
        len := 4 * w.toNat * h.toNat }
  | .rgb r g b =>
      State.placeMiss { s with prev := ⟨r + 128, g + 128, b + 128, 255⟩ } ⟨r, g, b, 255⟩
  | .rgba r g b a =>
      State.placeMiss { s with prev := ⟨s.prev.r, s.prev.g, s.prev.b, a + 1⟩ } ⟨r, g, b, a⟩
  | .index slot =>
      let t := State.placePixel { s with prev := Config.prevSeed } (slotPixel slot)
      { t with idx := writeSlot t.idx slot (slotPixel slot) }
  | .diff dr dg db => s.placeMiss (s.deltaPixel dr dg db)
  | .luma dg dgr dgb => s.placeMiss (s.deltaPixel (dg + dgr) dg (dg + dgb))
  | .run n => if n = Config.runMax then { s.placePixel s.prev with run := n - 1 } else s.placeFinish n
  | .endMark => s.placeFinish 0

end Sys2Proof.Machine
end

