-- ==== Sys2Proof/Machine/Step.lean ====
section
/-!
DEFINITION. One step of the machine, and the placing of one form as what the next step runs.
-/
namespace Sys2Proof.Machine

/-- One step: the one that PHASE, POS and NPIX enable (10_state R32). -/
def step (s : State) : Host.Outcome State Fault Refusal := enabledStep s

/-- `s` with the form that a table row's word stands for placed so that the next step runs it (log entry 8). -/
def State.withFetchWord (s : State) (nbits w : Nat) : State :=
  match decodeTableWord nbits w with
  | some i => s.placeInstr i
  | none => s

end Sys2Proof.Machine
end

