-- ==== Sys2Proof/Safety.lean ====
section
/-!
DEFINITION. What claims are stated in: the derived reader of the stream (95_test_vectors section 5; a test instrument,
not hardware), the image as pixels, the invariants of 10_state R37, and a run that goes on.
-/
namespace Sys2Proof.Machine

/-! ### The image -/

/-- Pixel `i` of the image in IN, as 20_memory R51 lays it out. -/
def State.pixelAt (s : State) (i : Nat) : Pixel :=
  ⟨Memory.read s.input (4 * i), Memory.read s.input (4 * i + 1), Memory.read s.input (4 * i + 2),
    Memory.read s.input (4 * i + 3)⟩

/-- Pixels 0 to `n - 1` of the image in IN. -/
def State.image (s : State) (n : Nat) : List Pixel := (List.range n).map s.pixelAt

/-- The next step is the pixel step of `cur` (41 R120, R121). -/
abbrev State.AtPixel (s : State) (cur : Pixel) : Prop := s.PixelEnabled ∧ s.fetchPixel s.pos = some cur

/-- At rest, with a START that the next step takes (10_state R32). -/
abbrev State.Starting (s : State) : Prop := s.phase ≠ .busy ∧ s.startPending = true

/-- `k` steps, stopping at the first fault or refusal. -/
def runFor : Nat → State → Result
  | 0, s => .next s
  | k + 1, s => andThen (step s) (runFor k)

/-! ### The derived reader -/

/-- What a reader of the stream keeps: its own PREV and table, and the pixels read (95 section 5). -/
structure Reader where
  prev : Pixel
  table : Table
  pixels : List Pixel
deriving DecidableEq, Repr

/-- The reader before the first opcode. -/
def Reader.initial : Reader := ⟨Config.prevSeed, Config.clearTable, []⟩

/-- A pixel read from a non-RUN opcode: table, PREV and pixels are updated. -/
def Reader.see (d : Reader) (cur : Pixel) : Reader :=
  ⟨cur, writeSlot d.table (hashOf cur) cur, d.pixels ++ [cur]⟩

/-- What an opcode denotes to the reader (95 section 5, 44 R163). The frames denote no pixel. -/
def Reader.take (d : Reader) : Instr → Reader
  | .header _ _ => d
  | .rgb r g b => d.see ⟨r, g, b, d.prev.a⟩
  | .rgba r g b a => d.see ⟨r, g, b, a⟩
  | .index slot => d.see (d.table.get slot)
  | .diff dr dg db => d.see ⟨addDelta d.prev.r dr, addDelta d.prev.g dg, addDelta d.prev.b db, d.prev.a⟩
  | .luma dg dgr dgb =>
      d.see ⟨addDelta d.prev.r (dg + dgr), addDelta d.prev.g dg, addDelta d.prev.b (dg + dgb), d.prev.a⟩
  | .run n => { d with pixels := d.pixels ++ List.replicate n d.prev }
  | .endMark => d

/-- Read opcodes until the bytes are used up; `fuel` bounds the number of opcodes. -/
def Reader.readAll : Nat → Reader → List Byte → Option Reader
  | _, d, [] => some d
  | 0, _, _ :: _ => none
  | fuel + 1, d, b :: bs =>
      match decodeAt .body (b :: bs) with
      | .ok (i, rest) => Reader.readAll fuel (d.take i) rest
      | .error _ => none

/-- What the opcode part of a stream denotes: every opcode has at least one byte, so its length is fuel enough. -/
def readOpcodes (bs : List Byte) : Option Reader := Reader.readAll bs.length Reader.initial bs

/-- Read opcodes until `n` pixels have been read, then require END and nothing after it (95 section 5). -/
def Reader.readImage (n : Nat) : Nat → Reader → List Byte → Option (List Pixel)
  | 0, d, bs => if n ≤ d.pixels.length ∧ decodeAt .last bs = .ok (.endMark, []) then some d.pixels else none
  | fuel + 1, d, bs =>
      if n ≤ d.pixels.length then
        if decodeAt .last bs = .ok (.endMark, []) then some d.pixels else none
      else
        match decodeAt .body bs with
        | .ok (i, rest) => Reader.readImage n fuel (d.take i) rest
        | .error _ => none

/-- Decode(OUT): width, height and pixels of a whole stream, or none (95 section 5). -/
def readStream (out : List Byte) : Option (U32 × U32 × List Pixel) :=
  match decodeAt .first out with
  | .ok (.header w h, rest) =>
      (Reader.readImage (w.toNat * h.toNat) rest.length Reader.initial rest).map fun px => (w, h, px)
  | _ => none

/-! ### Invariants -/

/-- What holds between steps while PHASE = BUSY (10_state R37), strengthened where the induction needs it. -/
structure State.EncodeInv (s : State) : Prop where
  /-- R37 (a) -/
  runBound : s.run ≤ 61
  /-- R37 (b) -/
  posBound : s.pos ≤ s.npix
  /-- R37 (b) -/
  lenIs : 4 * s.npix = s.len
  /-- 10_state R30 -/
  npixIs : s.npix = s.width.toNat * s.height.toNat
  /-- R37 (c): PREV is the immediately preceding input pixel, or the seed -/
  prevIs : s.prev = if s.pos = 0 then Config.prevSeed else s.pixelAt (s.pos - 1)
  /-- R37 (d) -/
  runWithin : s.run ≤ s.pos
  /-- R37 (d): the pixels of the pending run all equal PREV -/
  runPixels : ∀ i, s.pos - s.run ≤ i → i < s.pos → s.pixelAt i = s.prev
  /-- R37 (e) -/
  slotsHashed : ∀ k, s.slot k = Config.idxSeed ∨ hashOf (s.slot k) = k
  /-- 30_encoding R93 (c): PREV stands in its own slot, unless no non-run pixel has been seen -/
  prevStored : s.slot (hashOf s.prev) = s.prev ∨ (s.prev = Config.prevSeed ∧ s.idx = Config.clearTable)
  /-- R37 (f): OUT begins with the header -/
  headerFirst : s.out.take 14 = encode (.header s.width s.height)
  /-- R37 (f): OUT holds at least the header -/
  outLow : 14 ≤ s.outLen
  /-- R37 (f), for the pixels already represented in OUT -/
  outHigh : s.outLen ≤ 14 + 5 * (s.pos - s.run)
  /-- 41 R131: every opcode stands for at most 62 pixels -/
  outEnough : s.pos - s.run ≤ 62 * (s.outLen - 14)
  /-- R37 (g): what OUT denotes so far is the input without the pending run; the reader's PREV and table agree -/
  reads : readOpcodes (s.out.drop 14) = some ⟨s.prev, s.idx, s.image (s.pos - s.run)⟩

/-- What holds at DONE until the host moves (10_state R37 (a), 46 R183, 41 R132). That POS and NPIX still hold their values
there is the model's choice (46 R182 lets a model keep or drop them; log entry 5). -/
structure State.DoneInv (s : State) : Prop where
  /-- R37 (a) at DONE -/
  runZero : s.run = 0
  /-- POS as FINISH found it, kept (the model's choice, log entry 5) -/
  posIs : s.pos = s.npix
  /-- NPIX as START left it (10_state R30), kept (the model's choice, log entry 5) -/
  npixIs : s.npix = s.width.toNat * s.height.toNat
  /-- 40 R113 -/
  headerFirst : s.out.take 14 = encode (.header s.width s.height)
  /-- 46 R181 -/
  endLast : s.out.drop (s.outLen - 8) = encode .endMark
  /-- 46 R183 -/
  outLow : 22 ≤ s.outLen
  /-- 46 R183 -/
  outHigh : s.outLen ≤ 22 + 5 * s.npix
  /-- 46 R183 -/
  outEnough : s.npix ≤ 62 * (s.outLen - 22)
  /-- 41 R132: the stream reads back as the image -/
  reads : readStream s.out = some (s.width, s.height, s.image s.npix)

/-- The invariant of the machine between the host's moves: IN in canonical form (log entry 3), and in each phase what the
spec says of it. A host move at DONE may leave it, since it ties OUT to the WIDTH, HEIGHT and IN that OUT was made from; a
START enters it from every state that is `Ready`. -/
def State.Inv (s : State) : Prop :=
  Memory.wf s.input = true ∧
    match s.phase with
    | .idle => s.out = [] ∧ s.err = .noError
    | .busy => s.err = .noError ∧ s.EncodeInv
    | .done => s.err = .noError ∧ s.DoneInv
    | .fault => s.out = [] ∧ s.err = .malformedInput

/-- At rest with IN in canonical form: what every host move keeps, and all that a START needs. -/
abbrev State.Ready (s : State) : Prop := s.phase ≠ .busy ∧ Memory.wf s.input = true

/-- The machine goes on: the step answers a next state. -/
def State.GoesOn (s : State) : Prop := ∃ t, step s = .next t

end Sys2Proof.Machine
end

