-- ==== Sys2Proof/Certificates/Slice0/Obligations.lean ====
section
/-!
DEFINITION. The statements for the provers, each a `def Obligations.<Name> : Prop` from the spec's numbered rules. Where a
clause rests on the model's own choice its docstring names the log entry.
-/
open Sys2Proof Sys2Proof.Machine

/-! ### Reset and rest -/

/-- 70 R220: after power-on reset PHASE = IDLE, ERR = 0 and OUT is empty; 20_memory R57: the host reads no OUT there, since
PHASE is not DONE. -/
def Obligations.ResetLeavesIdleAndEmpty : Prop :=
  State.reset.phase = .idle ∧ State.reset.err = .noError ∧ State.reset.out = [] ∧ State.reset.outLen = 0 ∧
    hostReadOut State.reset = none

/-- The invariant holds right after reset. -/
def Obligations.ResetMeetsTheInvariant : Prop := State.reset.Inv

/-- 10_state R32, 60 R204: with no START issued the encoder is at rest, holding its registers: a step changes nothing. -/
def Obligations.RestChangesNothing : Prop :=
  ∀ s : State, s.phase ≠ .busy → s.startPending = false → step s = .next s

/-! ### The forms: completion and result -/

/-- 40 R113: EmitHEADER(w, h) appends "qoif", the two dimensions most significant byte first, 4 and 1, and changes
nothing else. -/
def Obligations.HeaderAppendsItsFourteenBytes : Prop :=
  ∀ (w h : U32) (s : State), exec (.header w h) s = .next { s with
    out := s.out ++
      [0x71, 0x6F, 0x69, 0x66,
       BitVec.ofNat 8 (w.toNat / 2 ^ 24), BitVec.ofNat 8 (w.toNat / 2 ^ 16), BitVec.ofNat 8 (w.toNat / 2 ^ 8),
       BitVec.ofNat 8 w.toNat,
       BitVec.ofNat 8 (h.toNat / 2 ^ 24), BitVec.ofNat 8 (h.toNat / 2 ^ 16), BitVec.ofNat 8 (h.toNat / 2 ^ 8),
       BitVec.ofNat 8 h.toNat,
       0x04, 0x01] }

/-- 30_encoding R82, 46 R181: END appends seven 0x00 and one 0x01 and changes nothing else. -/
def Obligations.EndAppendsItsEightBytes : Prop :=
  encode .endMark = [0, 0, 0, 0, 0, 0, 0, 1] ∧
    ∀ s : State, exec .endMark s = .next { s with out := s.out ++ [0, 0, 0, 0, 0, 0, 0, 1] }

/-- 42 R142: for a pending run of 1 to 62 pixels, RUN appends the byte 192 + (RUN - 1) and sets RUN to 0; nothing else
changes. -/
def Obligations.RunFlushesThePendingRun : Prop :=
  ∀ s : State, 1 ≤ s.run → s.run ≤ 62 →
    exec (.run s.run) s = .next { s with out := s.out ++ [BitVec.ofNat 8 (192 + (s.run - 1))], run := 0 }

/-- 43 R152: a pixel that differs from PREV and stands in its own slot is INDEX: one byte, the slot number; PREV becomes
the pixel; the slot keeps what it holds. -/
def Obligations.IndexEmitsTheSlot : Prop :=
  ∀ (s : State) (cur : Pixel), s.AtPixel cur → s.run = 0 → cur ≠ s.prev → s.slot (hashOf cur) = cur →
    exec (.index (hashOf cur)) s =
      .next { s with out := s.out ++ [BitVec.ofNat 8 (hashOf cur).val], prev := cur }

/-- 44 R161: a miss with equal alpha whose three deltas lie in [-2,1] is DIFF: one byte
64 + 16*(dr+2) + 4*(dg+2) + (db+2); PREV and the pixel's slot become the pixel. -/
def Obligations.DiffEmitsThreeSmallDeltas : Prop :=
  ∀ (s : State) (cur : Pixel) (dr dg db : Int), s.AtPixel cur → s.run = 0 → cur ≠ s.prev →
    s.slot (hashOf cur) ≠ cur → cur.a = s.prev.a →
    dr = delta8 cur.r s.prev.r → dg = delta8 cur.g s.prev.g → db = delta8 cur.b s.prev.b →
    -2 ≤ dr → dr ≤ 1 → -2 ≤ dg → dg ≤ 1 → -2 ≤ db → db ≤ 1 →
    exec (.diff dr dg db) s = .next { s with
      out := s.out ++
        [BitVec.ofNat 8 (64 + 16 * (dr + 2).toNat + 4 * (dg + 2).toNat + (db + 2).toNat)]
      prev := cur
      idx := writeSlot s.idx (hashOf cur) cur }

/-- 44 R162: a miss with equal alpha that is not DIFF, with dg in [-32,31] and dr - dg, db - dg in [-8,7], is LUMA: two
bytes 128 + (dg+32) and 16*(dg_r+8) + (dg_b+8); PREV and the pixel's slot become the pixel. -/
def Obligations.LumaEmitsGreenAndTwoOffsets : Prop :=
  ∀ (s : State) (cur : Pixel) (dr dg db : Int), s.AtPixel cur → s.run = 0 → cur ≠ s.prev →
    s.slot (hashOf cur) ≠ cur → cur.a = s.prev.a →
    dr = delta8 cur.r s.prev.r → dg = delta8 cur.g s.prev.g → db = delta8 cur.b s.prev.b →
    ¬ ((-2 ≤ dr ∧ dr ≤ 1) ∧ (-2 ≤ dg ∧ dg ≤ 1) ∧ (-2 ≤ db ∧ db ≤ 1)) →
    -32 ≤ dg → dg ≤ 31 → -8 ≤ dr - dg → dr - dg ≤ 7 → -8 ≤ db - dg → db - dg ≤ 7 →
    exec (.luma dg (dr - dg) (db - dg)) s = .next { s with
      out := s.out ++
        [BitVec.ofNat 8 (128 + (dg + 32).toNat),
         BitVec.ofNat 8 (16 * (dr - dg + 8).toNat + (db - dg + 8).toNat)]
      prev := cur
      idx := writeSlot s.idx (hashOf cur) cur }

/-- 45 R170: a miss with equal alpha that neither difference opcode fits is RGB: 0xFE and the three raw channels; PREV
and the pixel's slot become the pixel. -/
def Obligations.RgbEmitsThreeRawChannels : Prop :=
  ∀ (s : State) (cur : Pixel) (dr dg db : Int), s.AtPixel cur → s.run = 0 → cur ≠ s.prev →
    s.slot (hashOf cur) ≠ cur → cur.a = s.prev.a →
    dr = delta8 cur.r s.prev.r → dg = delta8 cur.g s.prev.g → db = delta8 cur.b s.prev.b →
    ¬ ((-2 ≤ dr ∧ dr ≤ 1) ∧ (-2 ≤ dg ∧ dg ≤ 1) ∧ (-2 ≤ db ∧ db ≤ 1)) →
    ¬ ((-32 ≤ dg ∧ dg ≤ 31) ∧ (-8 ≤ dr - dg ∧ dr - dg ≤ 7) ∧ (-8 ≤ db - dg ∧ db - dg ≤ 7)) →
    exec (.rgb cur.r cur.g cur.b) s = .next { s with
      out := s.out ++ [0xFE, cur.r, cur.g, cur.b]
      prev := cur
      idx := writeSlot s.idx (hashOf cur) cur }

/-- 45 R171: a miss with changed alpha is RGBA: 0xFF and the four raw channels; PREV and the pixel's slot become the
pixel. -/
def Obligations.RgbaEmitsFourRawChannels : Prop :=
  ∀ (s : State) (cur : Pixel), s.AtPixel cur → s.run = 0 → cur ≠ s.prev →
    s.slot (hashOf cur) ≠ cur → cur.a ≠ s.prev.a →
    exec (.rgba cur.r cur.g cur.b cur.a) s = .next { s with
      out := s.out ++ [0xFF, cur.r, cur.g, cur.b, cur.a]
      prev := cur
      idx := writeSlot s.idx (hashOf cur) cur }

/-! ### The forms: frames and stops -/

/-- The frame of the five pixel opcodes (41 R123, 43 R153, 20_memory R56): OUT grows by the form's length and keeps every
byte it had; PREV becomes the pixel fetched at POS; its slot holds it and every other slot is unchanged; every other
register, and every byte of IN, is unchanged. -/
def Obligations.PixelOpcodeFrame : Prop :=
  ∀ (i : Instr) (s t : State), i.position = .body → (∀ n, i ≠ .run n) → exec i s = .next t →
    t.outLen = s.outLen + i.size ∧ (∀ a, a < s.outLen → t.outByte a = s.outByte a) ∧
    s.AtPixel t.prev ∧ t.slot (hashOf t.prev) = t.prev ∧ (∀ k, k ≠ hashOf t.prev → t.slot k = s.slot k) ∧
    t.run = s.run ∧ t.width = s.width ∧ t.height = s.height ∧ t.len = s.len ∧ t.npix = s.npix ∧ t.pos = s.pos ∧
    t.phase = s.phase ∧ t.err = s.err ∧ (∀ a, Memory.read t.input a = Memory.read s.input a) ∧
    t.startPending = s.startPending ∧ t.free = s.free

/-- The frame of HEADER, END and RUN (40 R113, 46 R181, 42 R142): OUT grows by the form's length and keeps every byte it
had; RUN is 0 after RUN and unchanged after the frames; every other register, IDX and every byte of IN is unchanged. -/
def Obligations.FrameAndRunFrame : Prop :=
  ∀ (i : Instr) (s t : State), (i.position ≠ .body ∨ ∃ n, i = .run n) → exec i s = .next t →
    t.outLen = s.outLen + i.size ∧ (∀ a, a < s.outLen → t.outByte a = s.outByte a) ∧
    (i.position ≠ .body → t.run = s.run) ∧ ((∃ n, i = .run n) → t.run = 0) ∧
    t.prev = s.prev ∧ (∀ k, t.slot k = s.slot k) ∧
    t.width = s.width ∧ t.height = s.height ∧ t.len = s.len ∧ t.npix = s.npix ∧ t.pos = s.pos ∧
    t.phase = s.phase ∧ t.err = s.err ∧ (∀ a, Memory.read t.input a = Memory.read s.input a) ∧
    t.startPending = s.startPending ∧ t.free = s.free

/-- 41 R122, R130: for a pixel that differs from PREV, with no run pending, exactly one of the pixel opcodes with its
operands runs, and it is the selector's choice. -/
def Obligations.ExactlyOnePixelOpcodeRuns : Prop :=
  ∀ (s : State) (cur : Pixel), s.AtPixel cur → s.run = 0 → cur ≠ s.prev →
    ∀ i : Instr, i.position = .body → (∀ n, i ≠ .run n) →
      ((∃ t, exec i s = .next t) ↔ i = select cur s.prev s.idx)

/-- Where a pixel opcode stops, and how (the model's stops, log entry 9): not enabled outside a pixel step (10_state R32);
a fault where the pixel's fetch reaches beyond LEN (20_memory R52); not the outcome while a run is pending (42 R143), for a
run pixel or where the chain chooses another (41 R122). -/
def Obligations.PixelOpcodeStopsElsewhere : Prop :=
  ∀ (i : Instr) (s : State), i.position = .body → (∀ n, i ≠ .run n) →
    (¬ s.PixelEnabled → exec i s = .refused .notEnabled) ∧
    (s.PixelEnabled → s.fetchPixel s.pos = none → exec i s = .fault .inputOutOfRange) ∧
    (∀ cur, s.AtPixel cur → (s.run ≠ 0 ∨ cur = s.prev ∨ i ≠ select cur s.prev s.idx) →
      exec i s = .refused .notOutcome)

/-- RUN n stops unless n is the value of RUN and lies in [1,62], its precondition (42 R142; the model's stop, log entry
9). -/
def Obligations.RunStopsWithoutItsRun : Prop :=
  ∀ (n : Nat) (s : State), (n ≠ s.run ∨ n = 0 ∨ 62 < n) → exec (.run n) s = .refused .noPendingRun

/-! ### The encodings -/

/-- Words written out from 30_encoding and the spec's worked examples decode to the forms they stand for. -/
def Obligations.WrittenOutWordsDecode : Prop :=
  decodeAt .body [0x09#8] = .ok (.index 9, []) ∧
  decodeAt .body [0x5A#8] = .ok (.diff (-1) 0 0, []) ∧
  decodeAt .body [0xAC#8, 0x64#8] = .ok (.luma 12 (-2) (-4), []) ∧
  decodeAt .body [0xE5#8] = .ok (.run 38, []) ∧
  decodeAt .body [0xFE#8, 0x0A#8, 0x14#8, 0x1E#8] = .ok (.rgb 10 20 30, []) ∧
  decodeAt .body [0xFF#8, 0x0A#8, 0x14#8, 0x1E#8, 0x80#8] = .ok (.rgba 10 20 30 128, []) ∧
  decodeAt .first [0x71#8, 0x6F#8, 0x69#8, 0x66#8, 0#8, 0#8, 1#8, 2#8, 0#8, 0#8, 0#8, 3#8, 4#8, 1#8]
    = .ok (.header 258 3, []) ∧
  decodeAt .last [0#8, 0#8, 0#8, 0#8, 0#8, 0#8, 0#8, 1#8] = .ok (.endMark, [])

/-- Decode and encode agree: every well-formed form, with every operand at every value, is read back from its bytes at its
position, whatever follows (30_encoding R81 to R91). -/
def Obligations.DecodingUndoesEncoding : Prop :=
  ∀ (i : Instr) (rest : List Byte), i.wellFormed = true →
    decodeAt i.position (encode i ++ rest) = .ok (i, rest)

/-- The other direction: what decodes is the encoding of a well-formed form, so no two byte sequences mean the same form
at a position and no bit is ignored (30_encoding R81 to R91). -/
def Obligations.EncodingUndoesDecoding : Prop :=
  ∀ (p : Position) (bs : List Byte) (i : Instr) (rest : List Byte), decodeAt p bs = .ok (i, rest) →
    i.wellFormed = true ∧ i.position = p ∧ bs = encode i ++ rest

/-- 30_encoding R84: every first byte belongs to exactly one opcode, and it alone fixes the opcode's length. -/
def Obligations.FirstByteFixesOpcodeAndLength : Prop :=
  ∀ (b x y z w : Byte) (rest : List Byte),
    (b.toNat ≤ 0x3F → ∃ k : Slot, k.val = b.toNat ∧
      decodeAt .body (b :: x :: y :: z :: w :: rest) = .ok (.index k, x :: y :: z :: w :: rest)) ∧
    (0x40 ≤ b.toNat → b.toNat ≤ 0x7F → ∃ dr dg db,
      decodeAt .body (b :: x :: y :: z :: w :: rest) = .ok (.diff dr dg db, x :: y :: z :: w :: rest)) ∧
    (0x80 ≤ b.toNat → b.toNat ≤ 0xBF → ∃ dg dgr dgb,
      decodeAt .body (b :: x :: y :: z :: w :: rest) = .ok (.luma dg dgr dgb, y :: z :: w :: rest)) ∧
    (0xC0 ≤ b.toNat → b.toNat ≤ 0xFD →
      decodeAt .body (b :: x :: y :: z :: w :: rest) = .ok (.run (b.toNat - 0xC0 + 1), x :: y :: z :: w :: rest)) ∧
    (b.toNat = 0xFE → decodeAt .body (b :: x :: y :: z :: w :: rest) = .ok (.rgb x y z, w :: rest)) ∧
    (b.toNat = 0xFF → decodeAt .body (b :: x :: y :: z :: w :: rest) = .ok (.rgba x y z w, rest))

/-! ### The integer laws -/

/-- 41 R124: each delta lies in [-128,127], is congruent to c - p modulo 256, is 0 iff c = p; the six corner values;
Delta is the three channels' deltas, and alpha has none. -/
def Obligations.DeltaIsTheWrappedSignedDifference : Prop :=
  (∀ cur prev : Pixel, (delta cur prev).dr = delta8 cur.r prev.r ∧ (delta cur prev).dg = delta8 cur.g prev.g ∧
    (delta cur prev).db = delta8 cur.b prev.b) ∧
  (∀ c p : Byte, -128 ≤ delta8 c p ∧ delta8 c p ≤ 127 ∧
    (delta8 c p - ((c.toNat : Int) - (p.toNat : Int))) % 256 = 0 ∧ (delta8 c p = 0 ↔ c = p)) ∧
  delta8 0 255 = 1 ∧ delta8 255 0 = -1 ∧ delta8 128 0 = -128 ∧ delta8 127 0 = 127 ∧ delta8 0 128 = -128 ∧
  delta8 0 129 = 127

/-- 41 R126: dg_r and dg_b are the plain differences of the signed deltas. Wrapping them to 8 bits changes neither the LUMA
decision nor the emitted bytes, because dg lies in [-32,31] there, and then the plain differences lie in [-159,159]. -/
def Obligations.WrappingLumaDifferencesIsHarmless : Prop :=
  (∀ d : Deltas, d.dgr = d.dr - d.dg ∧ d.dgb = d.db - d.dg) ∧
  (∀ cur prev : Pixel, -32 ≤ (delta cur prev).dg → (delta cur prev).dg ≤ 31 →
    -159 ≤ (delta cur prev).dgr ∧ (delta cur prev).dgr ≤ 159 ∧
    -159 ≤ (delta cur prev).dgb ∧ (delta cur prev).dgb ≤ 159) ∧
  (∀ cur prev : Pixel,
    (LumaOk (delta cur prev) ↔
      (-32 ≤ (delta cur prev).dg ∧ (delta cur prev).dg ≤ 31) ∧
      (-8 ≤ sint8 ((delta cur prev).dgr % 256).toNat ∧ sint8 ((delta cur prev).dgr % 256).toNat ≤ 7) ∧
      (-8 ≤ sint8 ((delta cur prev).dgb % 256).toNat ∧ sint8 ((delta cur prev).dgb % 256).toNat ≤ 7)) ∧
    (LumaOk (delta cur prev) →
      encode (.luma (delta cur prev).dg (sint8 ((delta cur prev).dgr % 256).toNat)
          (sint8 ((delta cur prev).dgb % 256).toNat)) =
        encode (.luma (delta cur prev).dg (delta cur prev).dgr (delta cur prev).dgb)))

/-- 41 R128: the unsigned forms decide as the signed ones do and give the fields' values; Hash from the low six bits. -/
def Obligations.UnsignedFormsAgree : Prop :=
  (∀ c p : Byte, ((-2 ≤ delta8 c p ∧ delta8 c p ≤ 1) ↔ SmallOkUnsigned (wrapDiff c p)) ∧
    (SmallOkUnsigned (wrapDiff c p) → (delta8 c p + 2).toNat = (wrapDiff c p + 2) % 256)) ∧
  (∀ c p : Byte, ((-32 ≤ delta8 c p ∧ delta8 c p ≤ 31) ↔ GreenOkUnsigned (wrapDiff c p)) ∧
    (GreenOkUnsigned (wrapDiff c p) → (delta8 c p + 32).toNat = (wrapDiff c p + 32) % 256)) ∧
  (∀ c p cg pg : Byte, GreenOkUnsigned (wrapDiff cg pg) →
    ((-8 ≤ delta8 c p - delta8 cg pg ∧ delta8 c p - delta8 cg pg ≤ 7) ↔
      OffsetOkUnsigned (wrapDiff c p) (wrapDiff cg pg)) ∧
    (OffsetOkUnsigned (wrapDiff c p) (wrapDiff cg pg) →
      (delta8 c p - delta8 cg pg + 8).toNat = lumaFieldUnsigned (wrapDiff c p) (wrapDiff cg pg))) ∧
  (∀ p : Pixel, (hashOf p).val = hashLow p)

/-- 44 R163, 45 R170, R171, 43 R151: to a reader with the encoder's PREV and table, the opcode selected for a pixel
denotes that pixel. -/
def Obligations.SelectedOpcodeDenotesThePixel : Prop :=
  ∀ (cur prev : Pixel) (idx : Table) (px : List Pixel), cur ≠ prev →
    Reader.take ⟨prev, idx, px⟩ (select cur prev idx) = Reader.see ⟨prev, idx, px⟩ cur

/-! ### The selector -/

/-- 41 R130: of the six conditions of 41 R122 exactly one holds for every cur, PREV and IDX. -/
def Obligations.ExactlyOneConditionHolds : Prop :=
  ∀ (cur prev : Pixel) (idx : Table),
    ([decide (ChoosesRun cur prev), decide (ChoosesIndex cur prev idx), decide (ChoosesDiff cur prev idx),
      decide (ChoosesLuma cur prev idx), decide (ChoosesRgb cur prev idx),
      decide (ChoosesRgba cur prev idx)].count true) = 1

/-- 44 R160, 30_encoding R93 (g), 90 C3: a pixel whose alpha differs from PREV's is INDEX if the lookup hits and RGBA
otherwise. -/
def Obligations.ChangedAlphaIsIndexOrRgba : Prop :=
  ∀ (cur prev : Pixel) (idx : Table), cur.a ≠ prev.a →
    select cur prev idx =
      if idx.get (hashOf cur) = cur then .index (hashOf cur) else .rgba cur.r cur.g cur.b cur.a

/-- 43 R154: in a table as START leaves it, the pixel (0,0,0,0) hits and no other pixel does. -/
def Obligations.OnlyZeroPixelHitsTheClearedTable : Prop :=
  ∀ (s t : State), s.Starting → s.LengthOk → step s = .next t →
    ∀ cur : Pixel, t.slot (hashOf cur) = cur ↔ cur = ⟨0, 0, 0, 0⟩

/-- 30_encoding R93 (c): in an encode, an INDEX never names slot Hash(PREV). -/
def Obligations.IndexNeverNamesThePreviousSlot : Prop :=
  ∀ (s t : State) (k : Slot), s.EncodeInv → exec (.index k) s = .next t → k ≠ hashOf s.prev

/-! ### The steps -/

/-- What a step adds around the opcode it runs (41 R120): for a pixel that differs from PREV, the flush of a pending run
before it and POS + 1 after it. The opcode is the one the selector decodes from the four bytes at 4*POS. -/
def Obligations.StepRunsTheSelectedOpcode : Prop :=
  ∀ (s : State) (cur : Pixel), s.AtPixel cur → cur ≠ s.prev →
    step s =
      andThen (if 0 < s.run then exec (.run s.run) s else .next s) fun s1 =>
        andThen (exec (select cur s1.prev s1.idx) s1) fun s2 => .next { s2 with pos := s2.pos + 1 }

/-- What a step adds around the frames: START initialises, runs HEADER with WIDTH and HEIGHT and enters BUSY (40 R110);
FINISH flushes, runs END and enters DONE (46 R180). -/
def Obligations.StepRunsTheFrames : Prop :=
  (∀ s : State, s.Starting → s.LengthOk →
    step s = andThen (exec (.header s.width s.height) s.startCleared.initWorking) fun s1 =>
      .next { s1 with phase := .busy }) ∧
  (∀ s : State, s.phase = .busy → s.pos = s.npix →
    step s = andThen (if 0 < s.run then exec (.run s.run) s else .next s) fun s1 =>
      andThen (exec .endMark s1) fun s2 => .next { s2 with phase := .done })

/-- 42 R141: a run pixel is counted and nothing else changes but POS, unless it is the 62nd: then 0xFD is appended and RUN
is 0. -/
def Obligations.RunPixelIsCountedOrFlushedAtTheCap : Prop :=
  ∀ s : State, s.AtPixel s.prev →
    (s.run < 61 → step s = .next { s with run := s.run + 1, pos := s.pos + 1 }) ∧
    (s.run = 61 → step s = .next { s with out := s.out ++ [0xFD], run := 0, pos := s.pos + 1 })

/-- 41 R120, R123, R129, 42 R143: the step of a pixel that differs from PREV appends the pending run's byte, if any, then
the selected opcode's bytes; RUN is 0, PREV and the pixel's slot are the pixel, POS advances, nothing else changes. -/
def Obligations.OtherPixelIsFlushedForThenEncoded : Prop :=
  ∀ (s : State) (cur : Pixel), s.AtPixel cur → cur ≠ s.prev → s.run ≤ 61 →
    step s = .next { s with
      out := s.out ++ (if s.run = 0 then [] else [BitVec.ofNat 8 (192 + (s.run - 1))]) ++
        encode (select cur s.prev s.idx)
      run := 0
      prev := cur
      idx := writeSlot s.idx (hashOf cur) cur
      pos := s.pos + 1 }

/-- 40 R110, R112: a START whose check passes gives the working state its initial values, writes the header and enters
BUSY; WIDTH, HEIGHT, LEN and IN are left. -/
def Obligations.StartBeginsAnEncode : Prop :=
  ∀ s : State, s.Starting → s.len = 4 * s.width.toNat * s.height.toNat →
    step s = .next { s with
      startPending := false
      out := encode (.header s.width s.height)
      err := .noError
      npix := s.width.toNat * s.height.toNat
      pos := 0
      prev := ⟨0, 0, 0, 255⟩
      run := 0
      idx := Vector.replicate 64 ⟨0, 0, 0, 0⟩
      phase := .busy }

/-- 60 R191, R196: a START whose check fails empties OUT and records ERR = 1 and PHASE = FAULT; LEN, WIDTH, HEIGHT and IN
are left. Nothing is said of PREV, RUN, IDX, NPIX and POS, which are free. -/
def Obligations.MalformedInputIsTaken : Prop :=
  ∀ s : State, s.Starting → s.len ≠ 4 * s.width.toNat * s.height.toNat →
    ∃ t, step s = .next t ∧ t.out = [] ∧ t.outLen = 0 ∧ t.err = .malformedInput ∧ t.phase = .fault ∧
      t.len = s.len ∧ t.width = s.width ∧ t.height = s.height ∧ t.input = s.input

/-- 46 R180: FINISH appends the pending run's byte, if any, then the END marker, sets RUN to 0 and enters DONE. That PREV,
IDX, POS and NPIX are unchanged at DONE is the model's choice (log entry 5: 46 R182 lets a model keep or drop them). -/
def Obligations.FinishFlushesAndCloses : Prop :=
  ∀ s : State, s.phase = .busy → s.pos = s.npix → s.run ≤ 61 →
    step s = .next { s with
      out := s.out ++ (if s.run = 0 then [] else [BitVec.ofNat 8 (192 + (s.run - 1))]) ++
        [0, 0, 0, 0, 0, 0, 0, 1]
      run := 0
      phase := .done }

/-- 41 R129: every pixel step ends with POS + 1, whatever its outcome, and after START nothing else writes POS. That POS
survives FINISH and stays at DONE is the model's choice (log entry 5: 46 R182 lets a model keep or drop it). -/
def Obligations.PositionMovesByOneInPixelStepsOnly : Prop :=
  ∀ s t : State, step s = .next t →
    (s.PixelEnabled → t.pos = s.pos + 1) ∧ (¬ s.PixelEnabled → ¬ s.Starting → t.pos = s.pos)

/-- 10_state R33: the phase transitions, all of them. -/
def Obligations.PhaseFollowsItsTransitions : Prop :=
  ∀ s t : State, step s = .next t →
    t.phase =
      if s.phase = .busy then (if s.pos = s.npix then .done else .busy)
      else if s.startPending = true then
        (if s.len = 4 * s.width.toNat * s.height.toNat then .busy else .fault)
      else s.phase

/-- 10_state R34: ERR is set to 0 by every START that passes, to 1 by every START that fails, and never written
otherwise. -/
def Obligations.ErrorIsWrittenByStartOnly : Prop :=
  ∀ s t : State, step s = .next t →
    t.err =
      if s.Starting then (if s.len = 4 * s.width.toNat * s.height.toNat then .noError else .malformedInput)
      else s.err

/-- 20_memory R53, 10_state R25, R26: no step writes IN, LEN, WIDTH or HEIGHT. -/
def Obligations.InputIsNeverWritten : Prop :=
  ∀ s t : State, step s = .next t →
    (∀ a, Memory.read t.input a = Memory.read s.input a) ∧ t.len = s.len ∧ t.width = s.width ∧ t.height = s.height

/-- 20_memory R56, 41 R131, 46 R180: in BUSY no byte of OUT is written again or removed; a pixel step appends at most 6
bytes, FINISH 8 or 9. -/
def Obligations.OutputOnlyGrows : Prop :=
  ∀ s t : State, s.phase = .busy → step s = .next t →
    (∀ a, a < s.outLen → t.outByte a = s.outByte a) ∧
    (s.pos < s.npix → s.outLen ≤ t.outLen ∧ t.outLen ≤ s.outLen + 6) ∧
    (s.pos = s.npix → s.outLen + 8 ≤ t.outLen ∧ t.outLen ≤ s.outLen + 9)

/-- 20_memory R52, 60 R192: the only fault is a fetch beyond LEN (the model's own stop, log entry 9). -/
def Obligations.OnlyAFetchBeyondLenFaults : Prop :=
  ∀ (s : State) (r : Fault), step s = .fault r → s.PixelEnabled ∧ s.len < 4 * s.pos + 4

/-- 60 R192, R204: the machine goes on from every state at rest, whatever the host has done there, and in BUSY from every
state of an encode. Every state that meets the machine's invariant is one of these. -/
def Obligations.EncodeNeverStops : Prop :=
  (∀ s : State, (s.phase = .busy → s.EncodeInv) → s.GoesOn) ∧ (∀ s : State, s.Inv → s.GoesOn)

/-- 10_state R39, 60 R197, 41 R133: a START depends on IN, LEN, WIDTH and HEIGHT only. Two states at rest that agree on
these, whatever ran before, begin the same encode or take the same fault; the counter of the model's free values (log
entry 2) is set aside. -/
def Obligations.StartForgetsEarlierEncodes : Prop :=
  ∀ s u : State, s.Starting → u.Starting → s.width = u.width → s.height = u.height → s.len = u.len →
    s.input = u.input →
    ∃ t v, step s = .next t ∧ step u = .next v ∧ t.out = v.out ∧ t.err = v.err ∧ t.phase = v.phase ∧
      (s.LengthOk → { t with free := 0 } = { v with free := 0 })

/-- 40 R114, 20_memory R53: in BUSY a step depends on neither WIDTH nor HEIGHT nor the bytes already in OUT: with others
in their place it does the same and carries them along. -/
def Obligations.StepIgnoresDimensionsAndEarlierOutput : Prop :=
  ∀ (s t : State) (w h : U32) (earlier : List Byte), s.phase = .busy → s.out = [] → step s = .next t →
    step { s with width := w, height := h, out := earlier } =
      .next { t with width := w, height := h, out := earlier ++ t.out }

/-! ### The host -/

/-- 70 R226: the host may write IN, LEN, WIDTH and HEIGHT and issue START at rest, with the effect of its writes and no
other; in BUSY no move is had (93 U3: refuse). A START that waits to be taken counts as issued (log entry 6). -/
def Obligations.HostMovesAtRestOnly : Prop :=
  ∀ (s : State) (bytes : List Byte) (a n : Nat) (b : Byte) (w h : U32),
    (s.phase ≠ .busy → s.startPending = false →
      hostLoad bytes s = .next { s with input := Memory.writeAll s.input 0 bytes, len := bytes.length } ∧
      hostWriteIn a b s = .next { s with input := Memory.write s.input a b } ∧
      hostWriteLen n s = .next { s with len := n } ∧
      hostWriteSize w h s = .next { s with width := w, height := h } ∧
      hostStart s = .next { s with startPending := true }) ∧
    (s.phase = .busy →
      hostLoad bytes s = .refused .hostMayNot ∧ hostWriteIn a b s = .refused .hostMayNot ∧
      hostWriteLen n s = .refused .hostMayNot ∧ hostWriteSize w h s = .refused .hostMayNot ∧
      hostStart s = .refused .hostMayNot)

/-- 20_memory R50: one host write reaches one byte of IN and no other; IN keeps its canonical form. -/
def Obligations.HostWriteReachesOneByte : Prop :=
  ∀ (s t : State) (a : Nat) (b : Byte), Memory.wf s.input = true → hostWriteIn a b s = .next t →
    Memory.wf t.input = true ∧ (∀ k, Memory.read t.input k = if k = a then b else Memory.read s.input k)

/-- 20_memory R51, 41 R121: after the host has placed an image's pixels in IN, four bytes each in the order r, g, b, a,
the fetch of pixel i answers pixel i, and no pixel beyond the image is fetched. -/
def Obligations.LoadedPixelsAreFetched : Prop :=
  ∀ (s t : State) (pixels : List Pixel), Memory.wf s.input = true →
    hostLoad (pixels.flatMap fun p => [p.r, p.g, p.b, p.a]) s = .next t →
    Memory.wf t.input = true ∧ (∀ i, t.fetchPixel i = pixels[i]?) ∧ t.image pixels.length = pixels

/-- 20_memory R57, 10_state R28: the host reads OUT and OUT_LEN when PHASE = DONE and at no other time; 70 R226: it reads
ERR in FAULT. That a START that waits to be taken does not end these reads is the model's choice (log entry 10). -/
def Obligations.OutputIsVisibleAtDoneOnly : Prop :=
  ∀ s : State,
    (s.phase = .done → hostReadOut s = some s.out ∧ hostReadOutLen s = some s.out.length) ∧
    (s.phase ≠ .done → hostReadOut s = none ∧ hostReadOutLen s = none) ∧
    (s.phase = .fault → hostReadErr s = some s.err) ∧ (s.phase ≠ .fault → hostReadErr s = none)

/-! ### Headlines -/

/-- 10_state R37, R33, 41 R132: every step keeps the invariant: in BUSY all of 10_state R37, at DONE the framing, the size
bounds and that OUT reads back as the image, in IDLE and FAULT an empty OUT. Two parts of it are the model's choice: that
POS and NPIX are kept at DONE (log entry 5; 46 R182 lets a model keep or drop them) and the canonical form of IN (log entry
3). -/
def Obligations.StepKeepsTheInvariant : Prop := ∀ s t : State, s.Inv → step s = .next t → t.Inv

/-- 10_state R39, 60 R197, 40 R112: a START enters the invariant from EVERY state at rest whose IN is in canonical form (log
entry 3), whatever earlier encodes and host moves have left in the other registers: the encode it begins meets 10_state R37,
or the fault it takes leaves OUT empty and ERR = 1. -/
def Obligations.StartEstablishesTheInvariant : Prop :=
  ∀ s t : State, Memory.wf s.input = true → s.Starting → step s = .next t → t.Inv

/-- 70 R226, R223: every host move is had at rest and leaves the machine at rest with IN in canonical form (log entry 3), so
that a START that follows it enters the invariant. -/
def Obligations.HostMovesKeepTheMachineReady : Prop :=
  ∀ (s t : State) (bytes : List Byte) (a n : Nat) (b : Byte) (w h : U32), Memory.wf s.input = true →
    (hostLoad bytes s = .next t ∨ hostWriteIn a b s = .next t ∨ hostWriteLen n s = .next t ∨
      hostWriteSize w h s = .next t ∨ hostStart s = .next t) →
    s.Ready ∧ t.Ready

/-- 42 R145 (b), (d): a stretch of k pixels equal to PREV appends one 0xFD for every 62 counted and leaves the remainder
pending. -/
def Obligations.StretchOfRunPixels : Prop :=
  ∀ (k : Nat) (s : State), s.phase = .busy → s.run ≤ 61 → s.pos + k ≤ s.npix →
    (∀ i, s.pos ≤ i → i < s.pos + k → s.fetchPixel i = some s.prev) →
    runFor k s = .next { s with
      out := s.out ++ List.replicate ((s.run + k) / 62) 0xFD
      run := (s.run + k) % 62
      pos := s.pos + k }

/-- 41 R132, 70 R235, 46 R183: from every state at rest with a START whose check passes, the machine is at DONE after
NPIX + 2 steps, with an OUT that the host may read, that begins with the header and ends with END, that reads back as
exactly the image in IN, and whose size is within its bounds. -/
def Obligations.EncodeIsLosslessAndTerminates : Prop :=
  ∀ s : State, s.Starting → s.LengthOk →
    ∃ t, runFor (s.width.toNat * s.height.toNat + 2) s = .next t ∧ t.phase = .done ∧
      hostReadOut t = some t.out ∧
      t.out.take 14 = encode (.header s.width s.height) ∧ t.out.drop (t.outLen - 8) = encode .endMark ∧
      readStream t.out = some (s.width, s.height, s.image (s.width.toNat * s.height.toNat)) ∧
      22 ≤ t.outLen ∧ t.outLen ≤ 22 + 5 * (s.width.toNat * s.height.toNat) ∧
      s.width.toNat * s.height.toNat ≤ 62 * (t.outLen - 22)

/-- 60 R190, R196, R197, R198: from every state at rest with a START whose check fails, the machine is at FAULT after one
step with an empty OUT and ERR = 1 for the host to read, and stays there, however many steps follow, until the host moves. -/
def Obligations.MalformedEncodeRestsInFault : Prop :=
  ∀ (s : State) (k : Nat), s.Starting → ¬ s.LengthOk →
    ∃ t, runFor (k + 1) s = .next t ∧ t.phase = .fault ∧ t.err = .malformedInput ∧ t.out = [] ∧
      hostReadErr t = some .malformedInput ∧ step t = .next t
end

