-- ==== Sys2Proof/Laws/Encoding.lean ====
section
/-!
SUPPORT. The fields of the encodings' bytes, by evaluation over each field's range, the big-endian word in both
directions, and the operand ranges as propositions.
-/
namespace Sys2Proof

/-! ### Operand ranges -/

theorem wellFormed_diff {dr dg db : Int} :
    (Instr.diff dr dg db).wellFormed = true ↔
      (-2 ≤ dr ∧ dr ≤ 1) ∧ (-2 ≤ dg ∧ dg ≤ 1) ∧ (-2 ≤ db ∧ db ≤ 1) := by
  simp [Instr.wellFormed, and_assoc]

theorem wellFormed_luma {dg dgr dgb : Int} :
    (Instr.luma dg dgr dgb).wellFormed = true ↔
      (-32 ≤ dg ∧ dg ≤ 31) ∧ (-8 ≤ dgr ∧ dgr ≤ 7) ∧ (-8 ≤ dgb ∧ dgb ≤ 7) := by
  simp [Instr.wellFormed, and_assoc]

theorem wellFormed_run {n : Nat} : (Instr.run n).wellFormed = true ↔ 1 ≤ n ∧ n ≤ 62 :=
  decide_eq_true_iff

/-! ### Fields of a byte -/

theorem fieldOf_lt (b : Byte) (lo n : Nat) : fieldOf b lo n < 2 ^ n := Nat.mod_lt _ (Nat.two_pow_pos n)

/-- The fields of an INDEX byte (30_encoding R85); it is neither 8-bit tag. -/
theorem indexByte_fields : ∀ k, k < 64 →
    BitVec.ofNat 8 (0x00 ||| k) ≠ (0xFE : Byte) ∧ BitVec.ofNat 8 (0x00 ||| k) ≠ (0xFF : Byte) ∧
    fieldOf (BitVec.ofNat 8 (0x00 ||| k)) 6 2 = 0 ∧ fieldOf (BitVec.ofNat 8 (0x00 ||| k)) 0 6 = k := by decide

/-- The fields of a DIFF byte (30_encoding R86); it is neither 8-bit tag. -/
theorem diffByte_fields : ∀ x, x < 4 → ∀ y, y < 4 → ∀ z, z < 4 →
    BitVec.ofNat 8 (0x40 ||| (x <<< 4) ||| (y <<< 2) ||| z) ≠ (0xFE : Byte) ∧
    BitVec.ofNat 8 (0x40 ||| (x <<< 4) ||| (y <<< 2) ||| z) ≠ (0xFF : Byte) ∧
    fieldOf (BitVec.ofNat 8 (0x40 ||| (x <<< 4) ||| (y <<< 2) ||| z)) 6 2 = 1 ∧
    fieldOf (BitVec.ofNat 8 (0x40 ||| (x <<< 4) ||| (y <<< 2) ||| z)) 4 2 = x ∧
    fieldOf (BitVec.ofNat 8 (0x40 ||| (x <<< 4) ||| (y <<< 2) ||| z)) 2 2 = y ∧
    fieldOf (BitVec.ofNat 8 (0x40 ||| (x <<< 4) ||| (y <<< 2) ||| z)) 0 2 = z := by decide

/-- The fields of LUMA's first byte (30_encoding R87); it is neither 8-bit tag. -/
theorem lumaByte0_fields : ∀ k, k < 64 →
    BitVec.ofNat 8 (0x80 ||| k) ≠ (0xFE : Byte) ∧ BitVec.ofNat 8 (0x80 ||| k) ≠ (0xFF : Byte) ∧
    fieldOf (BitVec.ofNat 8 (0x80 ||| k)) 6 2 = 2 ∧ fieldOf (BitVec.ofNat 8 (0x80 ||| k)) 0 6 = k := by decide

/-- The fields of LUMA's second byte (30_encoding R87). -/
theorem lumaByte1_fields : ∀ x, x < 16 → ∀ y, y < 16 →
    fieldOf (BitVec.ofNat 8 ((x <<< 4) ||| y)) 4 4 = x ∧ fieldOf (BitVec.ofNat 8 ((x <<< 4) ||| y)) 0 4 = y := by decide

/-- The fields of a RUN byte (30_encoding R88): with a payload of at most 61 it is neither 8-bit tag. -/
theorem runByte_fields : ∀ k, k < 62 →
    BitVec.ofNat 8 (0xC0 ||| k) ≠ (0xFE : Byte) ∧ BitVec.ofNat 8 (0xC0 ||| k) ≠ (0xFF : Byte) ∧
    fieldOf (BitVec.ofNat 8 (0xC0 ||| k)) 6 2 = 3 ∧ fieldOf (BitVec.ofNat 8 (0xC0 ||| k)) 0 6 = k := by decide

/-! ### A byte from its fields -/

/-- A byte is put together from its 2-bit tag and 6-bit payload (30_encoding R84). -/
theorem byte_of_tag6 : ∀ b : Byte,
    (fieldOf b 6 2 = 0 → BitVec.ofNat 8 (0x00 ||| fieldOf b 0 6) = b) ∧
    (fieldOf b 6 2 = 2 → BitVec.ofNat 8 (0x80 ||| fieldOf b 0 6) = b) ∧
    (fieldOf b 6 2 = 3 → BitVec.ofNat 8 (0xC0 ||| fieldOf b 0 6) = b) := by decide

/-- A DIFF byte is put together from its tag and three 2-bit fields (30_encoding R86). -/
theorem byte_of_tag222 : ∀ b : Byte, fieldOf b 6 2 = 1 →
    BitVec.ofNat 8 (0x40 ||| (fieldOf b 4 2 <<< 4) ||| (fieldOf b 2 2 <<< 2) ||| fieldOf b 0 2) = b := by decide

/-- Any byte is put together from its two nibbles (30_encoding R87). -/
theorem byte_of_nibbles : ∀ b : Byte, BitVec.ofNat 8 ((fieldOf b 4 4 <<< 4) ||| fieldOf b 0 4) = b := by decide

/-- Apart from the two 8-bit tags, a byte of tag 3 has a payload of at most 61 (30_encoding R84, R88). -/
theorem runPayload_le : ∀ b : Byte, b ≠ 0xFE → b ≠ 0xFF → fieldOf b 6 2 = 3 → fieldOf b 0 6 < 62 := by decide

/-! ### A big-endian word -/

/-- The four bytes of a word, put together again, are the word (20_memory R59 (a)). -/
theorem wordBE_bytes (w : U32) :
    wordBE (w.extractLsb' 24 8) (w.extractLsb' 16 8) (w.extractLsb' 8 8) (w.extractLsb' 0 8) = w := by
  apply BitVec.eq_of_toNat_eq
  simp only [wordBE, BitVec.toNat_append, BitVec.extractLsb'_toNat, Nat.shiftRight_eq_div_pow, Nat.shiftLeft_eq]
  have h0 := w.isLt
  rw [← Nat.shiftLeft_eq, ← Nat.shiftLeft_eq, ← Nat.shiftLeft_eq,
    ← Nat.shiftLeft_add_eq_or_of_lt (by omega), ← Nat.shiftLeft_add_eq_or_of_lt (by omega),
    ← Nat.shiftLeft_add_eq_or_of_lt (by omega)]
  simp only [Nat.shiftLeft_eq]
  omega

/-- A word put together from four bytes has these bytes (20_memory R59 (a)). -/
theorem bytesBE_wordBE (b0 b1 b2 b3 : Byte) : bytesBE (wordBE b0 b1 b2 b3) = [b0, b1, b2, b3] := by
  have h0 := b0.isLt
  have h1 := b1.isLt
  have h2 := b2.isLt
  have h3 := b3.isLt
  have e : (wordBE b0 b1 b2 b3).toNat = ((b0.toNat * 256 + b1.toNat) * 256 + b2.toNat) * 256 + b3.toNat := by
    simp only [wordBE, BitVec.toNat_append]
    rw [← Nat.shiftLeft_add_eq_or_of_lt h3, ← Nat.shiftLeft_add_eq_or_of_lt h2,
      ← Nat.shiftLeft_add_eq_or_of_lt h1]
    simp only [Nat.shiftLeft_eq]
  simp only [bytesBE, List.cons.injEq, and_true]
  refine ⟨?_, ?_, ?_, ?_⟩ <;> apply BitVec.eq_of_toNat_eq <;>
    rw [BitVec.extractLsb'_toNat, e, Nat.shiftRight_eq_div_pow] <;> omega

end Sys2Proof
end

