-- ==== Sys2Proof/Laws/Memory.lean ====
section
/-!
SUPPORT. The input space as a memory: a read after a write, and every operation keeps the canonical form.
-/
namespace Sys2Proof.Machine

@[simp] theorem Memory.above_none (k : Nat) : Memory.above none k = true := rfl
@[simp] theorem Memory.above_some (l k : Nat) : Memory.above (some l) k = decide (l < k) := rfl

/-- A lower bound may be lowered. -/
theorem Memory.wfFrom_weaken {l l' : Nat} (h : l' ≤ l) :
    ∀ m, Memory.wfFrom (some l) m = true → Memory.wfFrom (some l') m = true
  | [], _ => rfl
  | (k, v) :: m, hm => by
      simp only [Memory.wfFrom, Memory.above_some, Bool.and_eq_true, decide_eq_true_eq] at hm ⊢
      exact ⟨⟨by omega, hm.1.2⟩, hm.2⟩

theorem Memory.wf_of_wfFrom {l : Nat} : ∀ m, Memory.wfFrom (some l) m = true → Memory.wf m = true
  | [], _ => rfl
  | (k, v) :: m, hm => by
      simp only [Memory.wf, Memory.wfFrom, Memory.above_none, Memory.above_some, Bool.and_eq_true, decide_eq_true_eq] at hm ⊢
      exact ⟨⟨trivial, hm.1.2⟩, hm.2⟩

/-- An address at or below the bound of a canonical memory is not listed. -/
theorem Memory.read_below {l a : Nat} (h : a ≤ l) :
    ∀ m, Memory.wfFrom (some l) m = true → Memory.read m a = Memory.unlisted
  | [], _ => rfl
  | (k, v) :: m, hm => by
      simp only [Memory.wfFrom, Memory.above_some, Bool.and_eq_true, decide_eq_true_eq] at hm
      rw [Memory.read, if_neg (by omega)]
      exact Memory.read_below (by omega) m hm.2

theorem Memory.read_place (a b) : ∀ m x, Memory.read (Memory.place a b m) x = if x = a then b else Memory.read m x
  | [], x => by simp only [Memory.place, Memory.read, eq_comm]
  | (k, v) :: m, x => by
      have ih := Memory.read_place a b m x
      simp only [Memory.place]
      split
      · simp only [Memory.read, eq_comm (a := a)]
      · split
        · next h =>
          subst h
          simp only [Memory.read, eq_comm (a := a)]
          split <;> rfl
        · simp only [Memory.read, ih]
          split
          · next hk => rw [if_neg (by omega)]
          · rfl

theorem Memory.read_erase (a : Nat) : ∀ m x, Memory.wf m = true →
    Memory.read (Memory.erase a m) x = if x = a then Memory.unlisted else Memory.read m x
  | [], x, _ => by simp [Memory.erase, Memory.read]
  | (k, v) :: m, x, hm => by
      have hm' : Memory.wfFrom (some k) m = true := by
        simp only [Memory.wf, Memory.wfFrom, Bool.and_eq_true] at hm; exact hm.2
      have ih := Memory.read_erase a m x (Memory.wf_of_wfFrom m hm')
      simp only [Memory.erase]
      split
      · next hk =>
        subst hk
        by_cases hx : x = k
        · rw [if_pos hx, hx]; exact Memory.read_below (Nat.le_refl _) m hm'
        · rw [if_neg hx, Memory.read, if_neg (fun h => hx h.symm)]
      · next hk =>
        simp only [Memory.read, ih]
        split
        · next hx => rw [if_neg (by omega)]
        · rfl

/-- A read after a write gives the byte written at its address and leaves every other address alone. -/
theorem Memory.read_write {m : List Host.Cell} (hm : Memory.wf m = true) (a : Nat) (b : Byte) (x : Nat) :
    Memory.read (Memory.write m a b) x = if x = a then b else Memory.read m x := by
  unfold Memory.write
  split
  · next h => rw [Memory.read_erase a m x hm, h]
  · exact Memory.read_place a b m x

theorem Memory.wfFrom_place {a : Nat} {b : Byte} (hb : b ≠ Memory.unlisted) :
    ∀ low m, Memory.above low a = true → Memory.wfFrom low m = true →
      Memory.wfFrom low (Memory.place a b m) = true
  | low, [], hlow, _ => by simp [Memory.place, Memory.wfFrom, hb, hlow]
  | low, (k, v) :: m, hlow, hm => by
      simp only [Memory.wfFrom, Bool.and_eq_true, decide_eq_true_eq] at hm
      simp only [Memory.place]
      split
      · next h => simp [Memory.wfFrom, hb, hlow, h, hm.1.2, hm.2]
      · split
        · next h => subst h; simp [Memory.wfFrom, hb, hlow, hm.2]
        · next h1 h2 =>
          have hk : Memory.above (some k) a = true := by simp; omega
          simp [Memory.wfFrom, hm.1.1, hm.1.2, Memory.wfFrom_place hb (some k) m hk hm.2]

theorem Memory.wfFrom_erase (a : Nat) : ∀ low m, Memory.wfFrom low m = true →
    Memory.wfFrom low (Memory.erase a m) = true
  | _, [], _ => rfl
  | low, (k, v) :: m, hm => by
      simp only [Memory.wfFrom, Bool.and_eq_true, decide_eq_true_eq] at hm
      simp only [Memory.erase]
      split
      · cases low with
        | none => exact Memory.wf_of_wfFrom m hm.2
        | some l =>
          have : l < k := by simpa using hm.1.1
          exact Memory.wfFrom_weaken (by omega) m hm.2
      · simp [Memory.wfFrom, hm.1.1, hm.1.2, Memory.wfFrom_erase a (some k) m hm.2]

/-- A write keeps the canonical form. -/
theorem Memory.wf_write {m : List Host.Cell} (hm : Memory.wf m = true) (a : Nat) (b : Byte) :
    Memory.wf (Memory.write m a b) = true := by
  unfold Memory.write
  split
  · exact Memory.wfFrom_erase a none m hm
  · next h => exact Memory.wfFrom_place h none m rfl hm

/-- Writing bytes at rising addresses keeps the canonical form. -/
theorem Memory.wf_writeAll : ∀ (bs : List Byte) (m : List Host.Cell) (a : Nat), Memory.wf m = true →
    Memory.wf (Memory.writeAll m a bs) = true
  | [], _, _, hm => hm
  | b :: bs, _, a, hm => Memory.wf_writeAll bs _ (a + 1) (Memory.wf_write hm a b)

/-- Bytes written at rising addresses read back, and every other address is left alone. -/
theorem Memory.read_writeAll : ∀ (bs : List Byte) (m : List Host.Cell) (a x : Nat), Memory.wf m = true →
    Memory.read (Memory.writeAll m a bs) x =
      if h : a ≤ x ∧ x < a + bs.length then bs[x - a]'(by omega) else Memory.read m x
  | [], _, a, x, _ => by
      rw [dif_neg (by simp only [List.length_nil]; omega)]; rfl
  | b :: bs, m, a, x, hm => by
      rw [Memory.writeAll, Memory.read_writeAll bs _ (a + 1) x (Memory.wf_write hm a b),
        Memory.read_write hm]
      by_cases hx : x = a
      · subst hx
        rw [dif_neg (by omega), if_pos rfl, dif_pos (by simp)]
        simp
      · by_cases h2 : a + 1 ≤ x ∧ x < a + 1 + bs.length
        · rw [dif_pos h2, dif_pos (by simp only [List.length_cons]; omega)]
          have : x - a = (x - (a + 1)) + 1 := by omega
          simp [this]
        · rw [dif_neg h2, if_neg hx, dif_neg (by simp only [List.length_cons]; omega)]

/-- The memory of the machine right after reset is in canonical form. -/
theorem State.reset_wf : Memory.wf State.reset.input = true := rfl

end Sys2Proof.Machine
end

