-- ==== Sys2Proof/Laws/HostPort.lean ====
section
/-!
SUPPORT. What the host's moves and reads can do, said once.
-/
namespace Sys2Proof.Machine

/-- A host move answers a next state exactly at rest with no START waiting, and then the one it names (70 R226). -/
theorem State.hostMove_eq_next {s t u : State} : s.hostMove t = .next u ↔ s.HostMay ∧ u = t := by
  unfold State.hostMove
  split
  · next h => exact ⟨fun e => ⟨h, (Host.Outcome.next.inj e).symm⟩, fun e => by rw [e.2]⟩
  · next h => exact ⟨nofun, fun e => absurd e.1 h⟩

/-- A host move is refused exactly where it is not had. -/
theorem State.hostMove_eq_refused {s t : State} {r : Refusal} :
    s.hostMove t = .refused r ↔ ¬ s.HostMay ∧ r = .hostMayNot := by
  unfold State.hostMove
  split
  · next h => exact ⟨nofun, fun e => absurd h e.1⟩
  · next h => exact ⟨fun e => ⟨h, (Host.Outcome.refused.inj e).symm⟩, fun e => by rw [e.2]⟩

/-! ### Reads -/

theorem hostReadOut_eq_some {s : State} {bs : List Byte} : hostReadOut s = some bs ↔ s.phase = .done ∧ s.out = bs := by
  unfold hostReadOut
  split <;> simp_all

/-- OUT_LEN is read as the length of the OUT that is read (10_state R28, 20_memory R57). -/
theorem hostReadOutLen_eq (s : State) : hostReadOutLen s = (hostReadOut s).map List.length := by
  unfold hostReadOutLen hostReadOut State.outLen
  split <;> rfl

theorem hostReadErr_eq_some {s : State} {e : ErrorCause} : hostReadErr s = some e ↔ s.phase = .fault ∧ s.err = e := by
  unfold hostReadErr
  split <;> simp_all

end Sys2Proof.Machine
end

