-- ==== Sys2Proof/Laws/State.lean ====
section
/-!
SUPPORT. The fields of each named update of the state, one lemma per field and update, so that no proof unfolds a record.
-/
namespace Sys2Proof.Machine

/-! ### emitByte -/

@[simp] theorem State.emitByte_prev (s : State) (b : Byte) : (s.emitByte b).prev = s.prev := rfl
@[simp] theorem State.emitByte_run (s : State) (b : Byte) : (s.emitByte b).run = s.run := rfl
@[simp] theorem State.emitByte_idx (s : State) (b : Byte) : (s.emitByte b).idx = s.idx := rfl
@[simp] theorem State.emitByte_out (s : State) (b : Byte) : (s.emitByte b).out = s.out ++ [b] := rfl
@[simp] theorem State.emitByte_width (s : State) (b : Byte) : (s.emitByte b).width = s.width := rfl
@[simp] theorem State.emitByte_height (s : State) (b : Byte) : (s.emitByte b).height = s.height := rfl
@[simp] theorem State.emitByte_len (s : State) (b : Byte) : (s.emitByte b).len = s.len := rfl
@[simp] theorem State.emitByte_npix (s : State) (b : Byte) : (s.emitByte b).npix = s.npix := rfl
@[simp] theorem State.emitByte_pos (s : State) (b : Byte) : (s.emitByte b).pos = s.pos := rfl
@[simp] theorem State.emitByte_phase (s : State) (b : Byte) : (s.emitByte b).phase = s.phase := rfl
@[simp] theorem State.emitByte_err (s : State) (b : Byte) : (s.emitByte b).err = s.err := rfl
@[simp] theorem State.emitByte_input (s : State) (b : Byte) : (s.emitByte b).input = s.input := rfl
@[simp] theorem State.emitByte_startPending (s : State) (b : Byte) : (s.emitByte b).startPending = s.startPending := rfl
@[simp] theorem State.emitByte_free (s : State) (b : Byte) : (s.emitByte b).free = s.free := rfl

/-! ### remember -/

@[simp] theorem State.remember_prev (s : State) (cur : Pixel) : (s.remember cur).prev = cur := rfl
@[simp] theorem State.remember_run (s : State) (cur : Pixel) : (s.remember cur).run = s.run := rfl
@[simp] theorem State.remember_idx (s : State) (cur : Pixel) : (s.remember cur).idx = writeSlot s.idx (hashOf cur) cur := rfl
@[simp] theorem State.remember_out (s : State) (cur : Pixel) : (s.remember cur).out = s.out := rfl
@[simp] theorem State.remember_width (s : State) (cur : Pixel) : (s.remember cur).width = s.width := rfl
@[simp] theorem State.remember_height (s : State) (cur : Pixel) : (s.remember cur).height = s.height := rfl
@[simp] theorem State.remember_len (s : State) (cur : Pixel) : (s.remember cur).len = s.len := rfl
@[simp] theorem State.remember_npix (s : State) (cur : Pixel) : (s.remember cur).npix = s.npix := rfl
@[simp] theorem State.remember_pos (s : State) (cur : Pixel) : (s.remember cur).pos = s.pos := rfl
@[simp] theorem State.remember_phase (s : State) (cur : Pixel) : (s.remember cur).phase = s.phase := rfl
@[simp] theorem State.remember_err (s : State) (cur : Pixel) : (s.remember cur).err = s.err := rfl
@[simp] theorem State.remember_input (s : State) (cur : Pixel) : (s.remember cur).input = s.input := rfl
@[simp] theorem State.remember_startPending (s : State) (cur : Pixel) : (s.remember cur).startPending = s.startPending := rfl
@[simp] theorem State.remember_free (s : State) (cur : Pixel) : (s.remember cur).free = s.free := rfl

/-! ### advance -/

@[simp] theorem State.advance_prev (s : State) : s.advance.prev = s.prev := rfl
@[simp] theorem State.advance_run (s : State) : s.advance.run = s.run := rfl
@[simp] theorem State.advance_idx (s : State) : s.advance.idx = s.idx := rfl
@[simp] theorem State.advance_out (s : State) : s.advance.out = s.out := rfl
@[simp] theorem State.advance_width (s : State) : s.advance.width = s.width := rfl
@[simp] theorem State.advance_height (s : State) : s.advance.height = s.height := rfl
@[simp] theorem State.advance_len (s : State) : s.advance.len = s.len := rfl
@[simp] theorem State.advance_npix (s : State) : s.advance.npix = s.npix := rfl
@[simp] theorem State.advance_pos (s : State) : s.advance.pos = s.pos + 1 := rfl
@[simp] theorem State.advance_phase (s : State) : s.advance.phase = s.phase := rfl
@[simp] theorem State.advance_err (s : State) : s.advance.err = s.err := rfl
@[simp] theorem State.advance_input (s : State) : s.advance.input = s.input := rfl
@[simp] theorem State.advance_startPending (s : State) : s.advance.startPending = s.startPending := rfl
@[simp] theorem State.advance_free (s : State) : s.advance.free = s.free := rfl

/-! ### startCleared -/

@[simp] theorem State.startCleared_prev (s : State) : s.startCleared.prev = s.prev := rfl
@[simp] theorem State.startCleared_run (s : State) : s.startCleared.run = s.run := rfl
@[simp] theorem State.startCleared_idx (s : State) : s.startCleared.idx = s.idx := rfl
@[simp] theorem State.startCleared_out (s : State) : s.startCleared.out = [] := rfl
@[simp] theorem State.startCleared_width (s : State) : s.startCleared.width = s.width := rfl
@[simp] theorem State.startCleared_height (s : State) : s.startCleared.height = s.height := rfl
@[simp] theorem State.startCleared_len (s : State) : s.startCleared.len = s.len := rfl
@[simp] theorem State.startCleared_npix (s : State) : s.startCleared.npix = s.npix := rfl
@[simp] theorem State.startCleared_pos (s : State) : s.startCleared.pos = s.pos := rfl
@[simp] theorem State.startCleared_phase (s : State) : s.startCleared.phase = s.phase := rfl
@[simp] theorem State.startCleared_err (s : State) : s.startCleared.err = s.err := rfl
@[simp] theorem State.startCleared_input (s : State) : s.startCleared.input = s.input := rfl
@[simp] theorem State.startCleared_startPending (s : State) : s.startCleared.startPending = false := rfl
@[simp] theorem State.startCleared_free (s : State) : s.startCleared.free = s.free := rfl

/-! ### initWorking -/

@[simp] theorem State.initWorking_prev (s : State) : s.initWorking.prev = Config.prevSeed := rfl
@[simp] theorem State.initWorking_run (s : State) : s.initWorking.run = 0 := rfl
@[simp] theorem State.initWorking_idx (s : State) : s.initWorking.idx = Config.clearTable := rfl
@[simp] theorem State.initWorking_out (s : State) : s.initWorking.out = s.out := rfl
@[simp] theorem State.initWorking_width (s : State) : s.initWorking.width = s.width := rfl
@[simp] theorem State.initWorking_height (s : State) : s.initWorking.height = s.height := rfl
@[simp] theorem State.initWorking_len (s : State) : s.initWorking.len = s.len := rfl
@[simp] theorem State.initWorking_npix (s : State) : s.initWorking.npix = s.width.toNat * s.height.toNat := rfl
@[simp] theorem State.initWorking_pos (s : State) : s.initWorking.pos = 0 := rfl
@[simp] theorem State.initWorking_phase (s : State) : s.initWorking.phase = s.phase := rfl
@[simp] theorem State.initWorking_err (s : State) : s.initWorking.err = .noError := rfl
@[simp] theorem State.initWorking_input (s : State) : s.initWorking.input = s.input := rfl
@[simp] theorem State.initWorking_startPending (s : State) : s.initWorking.startPending = s.startPending := rfl
@[simp] theorem State.initWorking_free (s : State) : s.initWorking.free = s.free := rfl

/-! ### takeMalformedInput -/

@[simp] theorem State.takeMalformedInput_prev (s : State) : s.takeMalformedInput.prev = Config.freePrev s.free := rfl
@[simp] theorem State.takeMalformedInput_run (s : State) : s.takeMalformedInput.run = Config.freeRun s.free := rfl
@[simp] theorem State.takeMalformedInput_idx (s : State) : s.takeMalformedInput.idx = Vector.ofFn (Config.freeSlot s.free) := rfl
@[simp] theorem State.takeMalformedInput_out (s : State) : s.takeMalformedInput.out = [] := rfl
@[simp] theorem State.takeMalformedInput_width (s : State) : s.takeMalformedInput.width = s.width := rfl
@[simp] theorem State.takeMalformedInput_height (s : State) : s.takeMalformedInput.height = s.height := rfl
@[simp] theorem State.takeMalformedInput_len (s : State) : s.takeMalformedInput.len = s.len := rfl
@[simp] theorem State.takeMalformedInput_npix (s : State) : s.takeMalformedInput.npix = Config.freeNpix s.free := rfl
@[simp] theorem State.takeMalformedInput_pos (s : State) : s.takeMalformedInput.pos = Config.freePos s.free := rfl
@[simp] theorem State.takeMalformedInput_phase (s : State) : s.takeMalformedInput.phase = .fault := rfl
@[simp] theorem State.takeMalformedInput_err (s : State) : s.takeMalformedInput.err = .malformedInput := rfl
@[simp] theorem State.takeMalformedInput_input (s : State) : s.takeMalformedInput.input = s.input := rfl
@[simp] theorem State.takeMalformedInput_startPending (s : State) : s.takeMalformedInput.startPending = s.startPending := rfl
@[simp] theorem State.takeMalformedInput_free (s : State) : s.takeMalformedInput.free = s.free + 1 := rfl

end Sys2Proof.Machine
end

