-- ==== Sys2Proof/Laws/Ops.lean ====
section
/-!
SUPPORT. What each shared operation can do, said once: sequencing, Emit, the fetch, the table, and the rule the five
pixel opcodes share.
-/
namespace Sys2Proof.Machine

/-! ### Sequencing -/

@[simp] theorem andThen_next (s : State) (f : State → Result) : andThen (.next s) f = f s := rfl
@[simp] theorem andThen_fault (r : Fault) (f : State → Result) : andThen (.fault r) f = .fault r := rfl
@[simp] theorem andThen_refused (r : Refusal) (f : State → Result) : andThen (.refused r) f = .refused r := rfl

/-- A sequence answers a next state iff its first part does and then its second. -/
theorem andThen_eq_next {o : Result} {f : State → Result} {t : State} :
    andThen o f = .next t ↔ ∃ s, o = .next s ∧ f s = .next t := by
  cases o <;> simp

/-- A sequence faults iff its first part does, or its second after it. -/
theorem andThen_eq_fault {o : Result} {f : State → Result} {r : Fault} :
    andThen o f = .fault r ↔ o = .fault r ∨ ∃ s, o = .next s ∧ f s = .fault r := by
  cases o <;> simp

/-! ### Emit -/

/-- Emit appends its bytes to OUT and changes nothing else (20_memory R56). -/
theorem State.emit_eq (bs : List Byte) : ∀ s : State, s.emit bs = { s with out := s.out ++ bs } := by
  induction bs with
  | nil => intro s; simp [State.emit]
  | cons b bs ih => intro s; simp [State.emit, State.emitByte, ih]

@[simp] theorem State.emit_out (s : State) (bs : List Byte) : (s.emit bs).out = s.out ++ bs := by simp [State.emit_eq]
@[simp] theorem State.emit_prev (s : State) (bs : List Byte) : (s.emit bs).prev = s.prev := by simp [State.emit_eq]
@[simp] theorem State.emit_run (s : State) (bs : List Byte) : (s.emit bs).run = s.run := by simp [State.emit_eq]
@[simp] theorem State.emit_idx (s : State) (bs : List Byte) : (s.emit bs).idx = s.idx := by simp [State.emit_eq]
@[simp] theorem State.emit_width (s : State) (bs : List Byte) : (s.emit bs).width = s.width := by simp [State.emit_eq]
@[simp] theorem State.emit_height (s : State) (bs : List Byte) : (s.emit bs).height = s.height := by simp [State.emit_eq]
@[simp] theorem State.emit_len (s : State) (bs : List Byte) : (s.emit bs).len = s.len := by simp [State.emit_eq]
@[simp] theorem State.emit_npix (s : State) (bs : List Byte) : (s.emit bs).npix = s.npix := by simp [State.emit_eq]
@[simp] theorem State.emit_pos (s : State) (bs : List Byte) : (s.emit bs).pos = s.pos := by simp [State.emit_eq]
@[simp] theorem State.emit_phase (s : State) (bs : List Byte) : (s.emit bs).phase = s.phase := by simp [State.emit_eq]
@[simp] theorem State.emit_err (s : State) (bs : List Byte) : (s.emit bs).err = s.err := by simp [State.emit_eq]
@[simp] theorem State.emit_input (s : State) (bs : List Byte) : (s.emit bs).input = s.input := by simp [State.emit_eq]
@[simp] theorem State.emit_startPending (s : State) (bs : List Byte) : (s.emit bs).startPending = s.startPending := by
  simp [State.emit_eq]
@[simp] theorem State.emit_free (s : State) (bs : List Byte) : (s.emit bs).free = s.free := by simp [State.emit_eq]

/-! ### The fetch -/

/-- FetchPixel answers the pixel IN holds at 4i, exactly when all four bytes lie below LEN (20_memory R52). -/
theorem State.fetchPixel_eq (s : State) (i : Nat) :
    s.fetchPixel i =
      if 4 * i + 4 ≤ s.len then
        some ⟨Memory.read s.input (4 * i), Memory.read s.input (4 * i + 1), Memory.read s.input (4 * i + 2),
          Memory.read s.input (4 * i + 3)⟩
      else none := by
  unfold State.fetchPixel State.memRead
  by_cases h : 4 * i + 4 ≤ s.len
  · rw [if_pos h, if_pos h]; rfl
  · rw [if_neg h, if_neg h]

/-- The fetch reads LEN and IN only. -/
theorem State.fetchPixel_congr {s t : State} (hl : s.len = t.len) (hi : s.input = t.input) (i : Nat) :
    s.fetchPixel i = t.fetchPixel i := by
  simp [State.fetchPixel_eq, hl, hi]

/-! ### The table -/

@[simp] theorem get_writeSlot_same (t : Table) (i : Slot) (p : Pixel) : (writeSlot t i p).get i = p := by
  simp [writeSlot, Vector.get_eq_getElem]

/-- A write leaves every other slot alone. -/
theorem get_writeSlot_other (t : Table) {i k : Slot} (p : Pixel) (h : k ≠ i) : (writeSlot t i p).get k = t.get k := by
  have : i.val ≠ k.val := fun e => h (Fin.ext e.symm)
  simp [writeSlot, Vector.get_eq_getElem, this]

/-- One slot after a write, whichever it is. -/
theorem get_writeSlot (t : Table) (i k : Slot) (p : Pixel) :
    (writeSlot t i p).get k = if k = i then p else t.get k := by
  split
  · next h => subst h; simp
  · next h => exact get_writeSlot_other t p h

/-- Writing what a slot already holds changes nothing (41 R123 (a)). -/
theorem writeSlot_get (t : Table) (i : Slot) : writeSlot t i (t.get i) = t := by
  simp [writeSlot, Vector.get_eq_getElem]

@[simp] theorem get_clearTable (k : Slot) : Config.clearTable.get k = Config.idxSeed := by
  simp [Config.clearTable, Vector.get_eq_getElem]

/-! ### The rule of the five pixel opcodes -/

/-- A pixel opcode answers a next state exactly in a pixel step, with no run pending, for a pixel of which it is the
outcome; the state it answers then. -/
theorem State.asOutcome_eq_next {s t : State} {i : Instr} {p : Pixel → Bool} :
    s.asOutcome i p = .next t ↔
      ∃ cur, s.PixelEnabled ∧ s.fetchPixel s.pos = some cur ∧ s.run = 0 ∧ p cur = true ∧
        t = (s.emit (encode i)).remember cur := by
  unfold State.asOutcome
  split
  · next he =>
    cases hf : s.fetchPixel s.pos with
    | none => simp
    | some cur =>
      by_cases h : s.run = 0 ∧ p cur = true
      · simp only [if_pos h, Host.Outcome.next.injEq]
        exact ⟨fun e => ⟨cur, he, rfl, h.1, h.2, e.symm⟩, fun ⟨_, _, hc, _, _, e⟩ => by cases hc; exact e.symm⟩
      · simp only [if_neg h, reduceCtorEq, false_iff]
        rintro ⟨_, _, hc, h1, h2, _⟩
        cases hc
        exact h ⟨h1, h2⟩
  · next he => simp only [reduceCtorEq, false_iff]; rintro ⟨_, h, _⟩; exact he h

/-- A pixel opcode faults only where its fetch reaches beyond LEN. -/
theorem State.asOutcome_eq_fault {s : State} {i : Instr} {p : Pixel → Bool} {r : Fault} :
    s.asOutcome i p = .fault r ↔ s.PixelEnabled ∧ s.fetchPixel s.pos = none := by
  unfold State.asOutcome
  split
  · next he =>
    cases hf : s.fetchPixel s.pos with
    | none => cases r; exact ⟨fun _ => ⟨he, rfl⟩, fun _ => rfl⟩
    | some cur => simp only [reduceCtorEq, and_false, iff_false]; split <;> simp
  · next he => simp only [reduceCtorEq, false_iff]; exact fun h => he h.1

end Sys2Proof.Machine
end

