-- ==== Sys2Proof/Laws/Meanings.lean ====
section
/-!
SUPPORT. What each meaning can do, said once: when it answers a next state and which; and that the selector's choice
always runs.
-/
namespace Sys2Proof.Machine

/-- HEADER always completes (40 R113). -/
@[simp] theorem exec_header (w h : U32) (s : State) :
    exec (.header w h) s = .next (s.emit (encode (.header w h))) := rfl

/-- END always completes (46 R181). -/
@[simp] theorem exec_endMark (s : State) : exec .endMark s = .next (s.emit (encode .endMark)) := rfl

/-- RUN completes exactly for the pending run (42 R142). -/
theorem exec_run_eq_next {n : Nat} {s t : State} :
    exec (.run n) s = .next t ↔
      (n = s.run ∧ 1 ≤ n ∧ n ≤ Config.runMax) ∧ t = { s.emit (encode (.run n)) with run := 0 } := by
  show execRun n s = _ ↔ _
  unfold execRun
  split
  · next h =>
    simp only [Host.Outcome.next.injEq]
    exact ⟨fun e => ⟨h, e.symm⟩, fun e => e.2.symm⟩
  · next h => simp only [reduceCtorEq, false_iff]; exact fun e => h e.1

/-- INDEX completes exactly as the outcome of a pixel step (43 R152). -/
theorem exec_index_eq_next {k : Slot} {s t : State} :
    exec (.index k) s = .next t ↔
      ∃ cur, s.AtPixel cur ∧ s.run = 0 ∧ (ChoosesIndex cur s.prev s.idx ∧ k = hashOf cur) ∧
        t = (s.emit (encode (.index k))).remember cur := by
  show State.asOutcome _ _ _ = _ ↔ _
  simp only [State.asOutcome_eq_next, decide_eq_true_eq, State.AtPixel, and_assoc]

/-- DIFF completes exactly as the outcome of a pixel step (44 R161). -/
theorem exec_diff_eq_next {dr dg db : Int} {s t : State} :
    exec (.diff dr dg db) s = .next t ↔
      ∃ cur, s.AtPixel cur ∧ s.run = 0 ∧
        (ChoosesDiff cur s.prev s.idx ∧ delta cur s.prev = ⟨dr, dg, db⟩) ∧
        t = (s.emit (encode (.diff dr dg db))).remember cur := by
  show State.asOutcome _ _ _ = _ ↔ _
  simp only [State.asOutcome_eq_next, decide_eq_true_eq, State.AtPixel, and_assoc]

/-- LUMA completes exactly as the outcome of a pixel step (44 R162). -/
theorem exec_luma_eq_next {dg dgr dgb : Int} {s t : State} :
    exec (.luma dg dgr dgb) s = .next t ↔
      ∃ cur, s.AtPixel cur ∧ s.run = 0 ∧
        (ChoosesLuma cur s.prev s.idx ∧ (delta cur s.prev).dg = dg ∧ (delta cur s.prev).dgr = dgr ∧
          (delta cur s.prev).dgb = dgb) ∧
        t = (s.emit (encode (.luma dg dgr dgb))).remember cur := by
  show State.asOutcome _ _ _ = _ ↔ _
  simp only [State.asOutcome_eq_next, decide_eq_true_eq, State.AtPixel, and_assoc]

/-- RGB completes exactly as the outcome of a pixel step (45 R170). -/
theorem exec_rgb_eq_next {r g b : Byte} {s t : State} :
    exec (.rgb r g b) s = .next t ↔
      ∃ cur, s.AtPixel cur ∧ s.run = 0 ∧
        (ChoosesRgb cur s.prev s.idx ∧ cur.r = r ∧ cur.g = g ∧ cur.b = b) ∧
        t = (s.emit (encode (.rgb r g b))).remember cur := by
  show State.asOutcome _ _ _ = _ ↔ _
  simp only [State.asOutcome_eq_next, decide_eq_true_eq, State.AtPixel, and_assoc]

/-- RGBA completes exactly as the outcome of a pixel step (45 R171). -/
theorem exec_rgba_eq_next {r g b a : Byte} {s t : State} :
    exec (.rgba r g b a) s = .next t ↔
      ∃ cur, s.AtPixel cur ∧ s.run = 0 ∧ (ChoosesRgba cur s.prev s.idx ∧ cur = ⟨r, g, b, a⟩) ∧
        t = (s.emit (encode (.rgba r g b a))).remember cur := by
  show State.asOutcome _ _ _ = _ ↔ _
  simp only [State.asOutcome_eq_next, decide_eq_true_eq, State.AtPixel, and_assoc]

/-- What the selector's chain answers (41 R120, R122): the form of the one condition that holds. -/
theorem select_cases {cur prev : Pixel} (idx : Table) (h : cur ≠ prev) :
    (ChoosesIndex cur prev idx ∧ select cur prev idx = .index (hashOf cur)) ∨
    (ChoosesDiff cur prev idx ∧
      select cur prev idx = .diff (delta cur prev).dr (delta cur prev).dg (delta cur prev).db) ∨
    (ChoosesLuma cur prev idx ∧
      select cur prev idx = .luma (delta cur prev).dg (delta cur prev).dgr (delta cur prev).dgb) ∨
    (ChoosesRgb cur prev idx ∧ select cur prev idx = .rgb cur.r cur.g cur.b) ∨
    (ChoosesRgba cur prev idx ∧ select cur prev idx = .rgba cur.r cur.g cur.b cur.a) := by
  unfold select
  by_cases h1 : Hits cur idx
  · exact .inl ⟨⟨h, h1⟩, if_pos h1⟩
  rw [if_neg h1]
  by_cases h2 : AlphaSame cur prev
  · rw [if_pos h2]
    by_cases h3 : SmallOk (delta cur prev)
    · exact .inr (.inl ⟨⟨⟨h, h1, h2⟩, h3⟩, if_pos h3⟩)
    rw [if_neg h3]
    by_cases h4 : LumaOk (delta cur prev)
    · exact .inr (.inr (.inl ⟨⟨⟨h, h1, h2⟩, h3, h4⟩, if_pos h4⟩))
    · exact .inr (.inr (.inr (.inl ⟨⟨⟨h, h1, h2⟩, h3, h4⟩, if_neg h4⟩)))
  · exact .inr (.inr (.inr (.inr ⟨⟨h, h1, h2⟩, if_neg h2⟩)))

/-- The selected opcode runs: its bytes are appended and the pixel is remembered (41 R120, R123). -/
theorem exec_select {s : State} {cur : Pixel} (hat : s.AtPixel cur) (hr : s.run = 0) (h : cur ≠ s.prev) :
    exec (select cur s.prev s.idx) s =
      .next ((s.emit (encode (select cur s.prev s.idx))).remember cur) := by
  obtain ⟨hc, e⟩ | ⟨hc, e⟩ | ⟨hc, e⟩ | ⟨hc, e⟩ | ⟨hc, e⟩ := select_cases s.idx h <;> rw [e]
  · exact exec_index_eq_next.2 ⟨cur, hat, hr, ⟨hc, rfl⟩, rfl⟩
  · exact exec_diff_eq_next.2 ⟨cur, hat, hr, ⟨hc, rfl⟩, rfl⟩
  · exact exec_luma_eq_next.2 ⟨cur, hat, hr, ⟨hc, rfl, rfl, rfl⟩, rfl⟩
  · exact exec_rgb_eq_next.2 ⟨cur, hat, hr, ⟨hc, rfl, rfl, rfl⟩, rfl⟩
  · exact exec_rgba_eq_next.2 ⟨cur, hat, hr, ⟨hc, rfl⟩, rfl⟩

end Sys2Proof.Machine
end

