-- ==== Sys2Proof/Laws/PerInstr.lean ====
section
/-!
SUPPORT. Facts about every instruction as syntax, one lemma per constructor.
-/
namespace Sys2Proof.Laws.EncodedSize

/-- A form's layout has the length that 20_memory R61 and 30_encoding R83 give it. -/
def Statement (i : Instr) : Prop := (encode i).length = i.size

theorem header (w h : U32) : Statement (.header w h) := rfl
theorem rgb (r g b : Byte) : Statement (.rgb r g b) := rfl
theorem rgba (r g b a : Byte) : Statement (.rgba r g b a) := rfl
theorem index (s : Slot) : Statement (.index s) := rfl
theorem diff (dr dg db : Int) : Statement (.diff dr dg db) := rfl
theorem luma (dg dgr dgb : Int) : Statement (.luma dg dgr dgb) := rfl
theorem run (n : Nat) : Statement (.run n) := rfl
theorem endMark : Statement .endMark := rfl

end Sys2Proof.Laws.EncodedSize
end

