-- ==== Sys2Proof/Laws/Steps.lean ====
section
/-!
SUPPORT. What the three steps can do, said once: the flush, the pixel step, FINISH and START as equations, and one
inversion lemma for `step`.
-/
namespace Sys2Proof.Machine

/-- The state after a pending run, if any, has been flushed (42 R142, R143). -/
def State.flushed (s : State) : State :=
  if s.run = 0 then s else { s.emit (encode (.run s.run)) with run := 0 }

@[simp] theorem State.flushed_run (s : State) : s.flushed.run = 0 := by
  unfold State.flushed; split <;> simp_all
@[simp] theorem State.flushed_prev (s : State) : s.flushed.prev = s.prev := by
  unfold State.flushed; split <;> simp
@[simp] theorem State.flushed_idx (s : State) : s.flushed.idx = s.idx := by
  unfold State.flushed; split <;> simp
@[simp] theorem State.flushed_width (s : State) : s.flushed.width = s.width := by
  unfold State.flushed; split <;> simp
@[simp] theorem State.flushed_height (s : State) : s.flushed.height = s.height := by
  unfold State.flushed; split <;> simp
@[simp] theorem State.flushed_len (s : State) : s.flushed.len = s.len := by
  unfold State.flushed; split <;> simp
@[simp] theorem State.flushed_npix (s : State) : s.flushed.npix = s.npix := by
  unfold State.flushed; split <;> simp
@[simp] theorem State.flushed_pos (s : State) : s.flushed.pos = s.pos := by
  unfold State.flushed; split <;> simp
@[simp] theorem State.flushed_phase (s : State) : s.flushed.phase = s.phase := by
  unfold State.flushed; split <;> simp
@[simp] theorem State.flushed_err (s : State) : s.flushed.err = s.err := by
  unfold State.flushed; split <;> simp
@[simp] theorem State.flushed_input (s : State) : s.flushed.input = s.input := by
  unfold State.flushed; split <;> simp
@[simp] theorem State.flushed_startPending (s : State) : s.flushed.startPending = s.startPending := by
  unfold State.flushed; split <;> simp
@[simp] theorem State.flushed_free (s : State) : s.flushed.free = s.free := by
  unfold State.flushed; split <;> simp
theorem State.flushed_out (s : State) :
    s.flushed.out = s.out ++ (if s.run = 0 then [] else encode (.run s.run)) := by
  unfold State.flushed; split <;> simp

/-- FlushIfPending answers a next state exactly when no more than 62 pixels are pending. -/
theorem flushIfPending_eq_next {s t : State} :
    flushIfPending s = .next t ↔ s.run ≤ 62 ∧ t = s.flushed := by
  unfold flushIfPending State.flushed
  by_cases h : s.run = 0
  · simp [h, eq_comm]
  · rw [if_pos (by omega), if_neg h, flush, exec_run_eq_next, Config.runMax]
    exact ⟨fun ⟨⟨_, _, h2⟩, e⟩ => ⟨h2, e⟩, fun ⟨h2, e⟩ => ⟨⟨rfl, by omega, h2⟩, e⟩⟩

/-- FlushIfPending never faults. -/
theorem flushIfPending_ne_fault (s : State) (r : Fault) : flushIfPending s ≠ .fault r := by
  unfold flushIfPending flush
  show (if 0 < s.run then execRun s.run s else .next s) ≠ _
  unfold execRun
  split
  · split <;> simp
  · simp

/-- The state after a run pixel has been counted (42 R141). -/
def State.accumulated (s : State) : State :=
  if s.run + 1 = 62 then { s.emit (encode (.run 62)) with run := 0 } else { s with run := s.run + 1 }

/-- RunAccumulate always completes (42 R141). -/
theorem runAccumulate_eq (s : State) : runAccumulate s = .next s.accumulated := by
  unfold runAccumulate State.accumulated
  rw [Config.runMax]
  split
  · next h =>
    rw [flush, exec_run_eq_next]
    refine ⟨⟨rfl, by simp [h], by simp [h, Config.runMax]⟩, ?_⟩
    simp [h, State.emit_eq]
  · rfl

/-- The state after a pixel that differs from PREV: flush, opcode, update (41 R120, R123). -/
def State.encoded (s : State) (cur : Pixel) : State :=
  (s.flushed.emit (encode (select cur s.prev s.idx))).remember cur

/-- A pixel that differs from PREV is encoded whenever no more than 62 pixels are pending. -/
theorem encodePixel_eq {s : State} {cur : Pixel} (hat : s.AtPixel cur) (h : cur ≠ s.prev) (hr : s.run ≤ 62) :
    encodePixel cur s = .next (s.encoded cur) := by
  have hat' : s.flushed.AtPixel cur := by
    refine ⟨⟨s.flushed_phase.trans hat.1.1, by simpa using hat.1.2⟩, ?_⟩
    rw [s.flushed_pos, State.fetchPixel_congr s.flushed_len s.flushed_input]; exact hat.2
  have := exec_select hat' s.flushed_run (by simpa using h)
  simp only [State.flushed_prev, State.flushed_idx] at this
  rw [encodePixel, flushIfPending_eq_next.2 ⟨hr, rfl⟩, andThen_next, State.flushed_prev, State.flushed_idx, this]
  rfl

/-- The pixel step of a run pixel (41 R120, 42 R141). -/
theorem pixelStep_run {s : State} (hat : s.AtPixel s.prev) : pixelStep s = .next s.accumulated.advance := by
  unfold pixelStep
  rw [hat.2]
  simp [runAccumulate_eq]

/-- The pixel step of any other pixel (41 R120). -/
theorem pixelStep_other {s : State} {cur : Pixel} (hat : s.AtPixel cur) (h : cur ≠ s.prev) (hr : s.run ≤ 62) :
    pixelStep s = .next (s.encoded cur).advance := by
  unfold pixelStep
  rw [hat.2]
  simp [h, encodePixel_eq hat h hr]

/-- The state after FINISH (46 R180). -/
def State.finished (s : State) : State := { s.flushed.emit (encode .endMark) with phase := .done }

/-- FINISH answers a next state exactly when no more than 62 pixels are pending. -/
theorem finish_eq_next {s t : State} : finish s = .next t ↔ s.run ≤ 62 ∧ t = s.finished := by
  unfold finish State.finished
  simp only [andThen_eq_next, flushIfPending_eq_next, exec_endMark, Host.Outcome.next.injEq]
  constructor
  · rintro ⟨_, ⟨h, rfl⟩, _, rfl, rfl⟩; exact ⟨h, rfl⟩
  · rintro ⟨h, rfl⟩; exact ⟨_, ⟨h, rfl⟩, _, rfl, rfl⟩

/-- The state after a START that passes its check (40 R110). -/
def State.started (s : State) : State :=
  { s.startCleared.initWorking.emit (encode (.header s.width s.height)) with phase := .busy }

/-- START always completes: it begins an encode or takes MalformedInput (40 R110). -/
theorem start_eq (s : State) :
    start s = .next (if s.LengthOk then s.started else s.startCleared.takeMalformedInput) := by
  unfold start
  split <;> simp [State.started]

theorem step_rest {s : State} (hp : s.phase ≠ .busy) :
    step s = if s.startPending then start s else .next s := by
  unfold step enabledStep
  cases h : s.phase <;> simp_all

theorem step_busy {s : State} (hp : s.phase = .busy) :
    step s = if s.pos < s.npix then pixelStep s else if s.pos = s.npix then finish s else .refused .notEnabled := by
  unfold step enabledStep
  rw [hp]

/-- Everything a step can do when it answers a next state (10_state R32). -/
theorem step_cases {s t : State} (h : step s = .next t) :
    (s.phase ≠ .busy ∧ s.startPending = false ∧ t = s) ∨
    (s.phase ≠ .busy ∧ s.startPending = true ∧ s.LengthOk ∧ t = s.started) ∨
    (s.phase ≠ .busy ∧ s.startPending = true ∧ ¬ s.LengthOk ∧ t = s.startCleared.takeMalformedInput) ∨
    (s.AtPixel s.prev ∧ t = s.accumulated.advance) ∨
    (∃ cur, s.AtPixel cur ∧ cur ≠ s.prev ∧ s.run ≤ 62 ∧ t = (s.encoded cur).advance) ∨
    (s.phase = .busy ∧ s.pos = s.npix ∧ s.run ≤ 62 ∧ t = s.finished) := by
  by_cases hp : s.phase = .busy
  · rw [step_busy hp] at h
    split at h
    · next hlt =>
      cases hf : s.fetchPixel s.pos with
      | none => rw [pixelStep, hf] at h; cases h
      | some cur =>
        have hat : s.AtPixel cur := ⟨⟨hp, hlt⟩, hf⟩
        by_cases hc : cur = s.prev
        · subst hc
          rw [pixelStep_run hat] at h
          cases h
          exact .inr (.inr (.inr (.inl ⟨hat, rfl⟩)))
        · have hr : s.run ≤ 62 := by
            simp only [pixelStep, hf, if_neg hc, andThen_eq_next, encodePixel] at h
            obtain ⟨_, ⟨_, h1, _⟩, _⟩ := h
            exact (flushIfPending_eq_next.1 h1).1
          rw [pixelStep_other hat hc hr] at h
          cases h
          exact .inr (.inr (.inr (.inr (.inl ⟨cur, hat, hc, hr, rfl⟩))))
    · split at h
      · next heq =>
        obtain ⟨hr, e⟩ := finish_eq_next.1 h
        exact .inr (.inr (.inr (.inr (.inr ⟨hp, heq, hr, e⟩))))
      · cases h
  · rw [step_rest hp] at h
    cases hs : s.startPending with
    | false => rw [hs] at h; cases h; exact .inl ⟨hp, rfl, rfl⟩
    | true =>
      rw [hs, if_pos rfl, start_eq] at h
      split at h
      · next hl => cases h; exact .inr (.inl ⟨hp, rfl, hl, rfl⟩)
      · next hl => cases h; exact .inr (.inr (.inl ⟨hp, rfl, hl, rfl⟩))

end Sys2Proof.Machine
end

