-- ==== Sys2Proof/Laws/Reading.lean ====
section
/-!
SUPPORT. The image in IN and the derived reader: what the claims about whole streams are taken apart into.
-/
namespace Sys2Proof.Machine

/-! ### The image -/

/-- The image reads IN only. -/
theorem State.image_congr {s t : State} (h : s.input = t.input) (n : Nat) : s.image n = t.image n := by
  have e : s.pixelAt = t.pixelAt := by funext i; simp [State.pixelAt, h]
  simp only [State.image, e]

@[simp] theorem State.image_zero (s : State) : s.image 0 = [] := rfl

theorem State.image_succ (s : State) (n : Nat) : s.image (n + 1) = s.image n ++ [s.pixelAt n] := by
  simp [State.image, List.range_succ]

@[simp] theorem State.image_length (s : State) (n : Nat) : (s.image n).length = n := by simp [State.image]

/-- A stretch of equal pixels is a repetition in the image. -/
theorem State.image_add_replicate (s : State) (a : Nat) (p : Pixel) :
    ∀ k, (∀ i, a ≤ i → i < a + k → s.pixelAt i = p) → s.image (a + k) = s.image a ++ List.replicate k p := by
  intro k
  induction k with
  | zero => intro _; simp
  | succ k ih =>
    intro h
    rw [← Nat.add_assoc, State.image_succ, ih fun i h1 h2 => h i h1 (by omega), h (a + k) (by omega) (by omega),
      List.replicate_succ', List.append_assoc]

/-- The pixel a pixel step fetches is the image's pixel at POS. -/
theorem State.AtPixel.eq_pixelAt {s : State} {cur : Pixel} (h : s.AtPixel cur) : cur = s.pixelAt s.pos := by
  have e := h.2
  rw [State.fetchPixel_eq] at e
  split at e
  · exact (Option.some.inj e).symm
  · cases e

/-! ### The selected opcode -/

/-- The selector chooses a well-formed opcode (41 R122, 30_encoding R94). -/
theorem select_wellFormed {cur prev : Pixel} (idx : Table) (h : cur ≠ prev) :
    (select cur prev idx).wellFormed = true := by
  obtain ⟨_, e⟩ | ⟨hc, e⟩ | ⟨hc, e⟩ | ⟨_, e⟩ | ⟨_, e⟩ := select_cases idx h <;> rw [e]
  · rfl
  · exact wellFormed_diff.2 hc.2
  · exact wellFormed_luma.2 hc.2.2
  · rfl
  · rfl

theorem select_position {cur prev : Pixel} (idx : Table) (h : cur ≠ prev) :
    (select cur prev idx).position = .body := by
  obtain ⟨_, e⟩ | ⟨_, e⟩ | ⟨_, e⟩ | ⟨_, e⟩ | ⟨_, e⟩ := select_cases idx h <;> rw [e] <;> rfl

/-- The selected opcode has 1 to 5 bytes (41 R131). -/
theorem select_length {cur prev : Pixel} (idx : Table) (h : cur ≠ prev) :
    1 ≤ (encode (select cur prev idx)).length ∧ (encode (select cur prev idx)).length ≤ 5 := by
  obtain ⟨_, e⟩ | ⟨_, e⟩ | ⟨_, e⟩ | ⟨_, e⟩ | ⟨_, e⟩ := select_cases idx h <;> rw [e] <;> simp [encode]

/-! ### The reader -/

/-- Every well-formed opcode denotes at least one pixel. -/
theorem Reader.take_pixels_lt (d : Reader) {i : Instr} (hw : i.wellFormed = true) (hp : i.position = .body) :
    d.pixels.length < (d.take i).pixels.length := by
  cases i with
  | run n => rw [wellFormed_run] at hw; simp only [Reader.take, List.length_append, List.length_replicate]; omega
  | _ => simp [Reader.take, Reader.see, Instr.position] at *

/-- More fuel changes no answer. -/
theorem Reader.readAll_mono {d' : Reader} : ∀ (f g : Nat) (d : Reader) (bs : List Byte), f ≤ g →
    Reader.readAll f d bs = some d' → Reader.readAll g d bs = some d' := by
  intro f
  induction f with
  | zero =>
    intro g d bs _ h
    cases bs with
    | nil => cases g <;> exact h
    | cons b bs => cases h
  | succ f ih =>
    intro g d bs hle h
    cases bs with
    | nil => cases g <;> exact h
    | cons b bs =>
      cases g with
      | zero => omega
      | succ g =>
        simp only [Reader.readAll] at h ⊢
        split at h
        · exact ih _ _ _ (by omega) h
        · cases h

end Sys2Proof.Machine
end

