-- ==== Sys2Proof/Laws/Run.lean ====
section
/-!
SUPPORT. Several steps of the machine: one step at a time, a run cut in two, and the host's run of the same machine.
-/
namespace Sys2Proof.Machine

theorem runFor_zero (s : State) : runFor 0 s = .next s := rfl

theorem runFor_succ (k : Nat) (s : State) : runFor (k + 1) s = andThen (step s) (runFor k) := rfl

/-- A run of `j + k` steps is a run of `j` and then one of `k`. -/
theorem runFor_add (j k : Nat) : ∀ s : State, runFor (j + k) s = andThen (runFor j s) (runFor k) := by
  induction j with
  | zero => intro s; rw [Nat.zero_add, runFor_zero, andThen_next]
  | succ j ih =>
    intro s
    rw [Nat.succ_add, runFor_succ, runFor_succ]
    cases step s with
    | next t => exact ih t
    | fault r => rfl
    | refused r => rfl

/-- The host's run of `core` is the same. -/
theorem core_run_eq (k : Nat) : ∀ s : State, Host.Core.run core k s = runFor k s := by
  induction k with
  | zero => intro s; rfl
  | succ k ih =>
    intro s
    have e : core.step s = step s := rfl
    cases h : step s with
    | next t => simp only [Host.Core.run, e, h, runFor_succ, andThen_next]; exact ih t
    | fault r => simp only [Host.Core.run, e, h, runFor_succ, andThen_fault]; rfl
    | refused r => simp only [Host.Core.run, e, h, runFor_succ, andThen_refused]; rfl

end Sys2Proof.Machine
end

