-- ==== Sys2Proof/Tests/Slice0.lean ====
section
/-!
SUPPORT. The model's own tests. Expected values come from the spec's tables and vectors (95_test_vectors), from its worked
examples, or by hand from its rules. `test_witness_…` theorems show a concrete case that meets the hypotheses of the
obligation they name, one for each clause at the ends of its range.
-/
namespace Sys2Proof.Tests
open Sys2Proof Sys2Proof.Machine

/-! ### Well-formed terms -/

theorem test_wellFormed_accepts_ends :
    (Instr.diff (-2) 1 (-2)).wellFormed = true ∧ (Instr.luma (-32) (-8) 7).wellFormed = true ∧
    (Instr.luma 31 7 (-8)).wellFormed = true ∧ (Instr.run 1).wellFormed = true ∧ (Instr.run 62).wellFormed = true := by
  decide

theorem test_wellFormed_refuses_diff :
    (Instr.diff (-3) 0 0).wellFormed = false ∧ (Instr.diff 2 0 0).wellFormed = false ∧
    (Instr.diff 0 (-3) 0).wellFormed = false ∧ (Instr.diff 0 2 0).wellFormed = false ∧
    (Instr.diff 0 0 (-3)).wellFormed = false ∧ (Instr.diff 0 0 2).wellFormed = false := by decide

theorem test_wellFormed_refuses_luma :
    (Instr.luma (-33) 0 0).wellFormed = false ∧ (Instr.luma 32 0 0).wellFormed = false ∧
    (Instr.luma 0 (-9) 0).wellFormed = false ∧ (Instr.luma 0 8 0).wellFormed = false ∧
    (Instr.luma 0 0 (-9)).wellFormed = false ∧ (Instr.luma 0 0 8).wellFormed = false := by decide

theorem test_wellFormed_refuses_run :
    (Instr.run 0).wellFormed = false ∧ (Instr.run 63).wellFormed = false := by decide

/-! ### Words written out from the encodings -/

/-- 30_encoding R85, 95 V-IDX-1: Hash (10,20,30,255) is 9. -/
theorem test_decode_index :
    decodeAt .body [0b00_001001] = .ok (.index 9, []) ∧ decodeAt .body [0b00_111111] = .ok (.index 63, []) := by decide

/-- 30_encoding R86, 95 S7: DIFF -1,0,0 is 5A. -/
theorem test_decode_diff :
    decodeAt .body [0b01_01_10_10] = .ok (.diff (-1) 0 0, []) ∧
    decodeAt .body [0b01_00_01_11] = .ok (.diff (-2) (-1) 1, []) := by decide

/-- 30_encoding R87: 32 + 12 = 44, 8 - 2 = 6, 8 - 4 = 4. -/
theorem test_decode_luma :
    decodeAt .body [0b10_101100, 0b0110_0100] = .ok (.luma 12 (-2) (-4), []) ∧
    decodeAt .body [0b10_000000, 0b0000_1111] = .ok (.luma (-32) (-8) 7, []) := by decide

/-- 30_encoding R88, 95 S4: FD is 62 pixels, E5 is 38. -/
theorem test_decode_run :
    decodeAt .body [0b11_111101] = .ok (.run 62, []) ∧ decodeAt .body [0b11_100101] = .ok (.run 38, []) ∧
    decodeAt .body [0b11_000000] = .ok (.run 1, []) := by decide

/-- 30_encoding R89, R90: the tags FE and FF, then the channels in order. -/
theorem test_decode_literals :
    decodeAt .body [0b11111110, 10, 20, 30] = .ok (.rgb 10 20 30, []) ∧
    decodeAt .body [0b11111111, 10, 20, 30, 128] = .ok (.rgba 10 20 30 128, []) := by decide

/-- 30_encoding R81, 95 V-FRM-2: the dimensions lie most significant byte first. -/
theorem test_decode_header :
    decodeAt .first [0x71, 0x6F, 0x69, 0x66, 0, 0, 1, 2, 0, 0, 0, 3, 4, 1] = .ok (.header 258 3, []) := by decide

/-- 30_encoding R82. -/
theorem test_decode_end : decodeAt .last [0, 0, 0, 0, 0, 0, 0, 1] = .ok (.endMark, []) := by decide

/-- 30_encoding R83: what the format is missing is named. -/
theorem test_decode_rejects :
    decodeAt .body [] = .error .truncated ∧ decodeAt .body [0x80] = .error .truncated ∧
    decodeAt .body [0xFE, 1, 2] = .error .truncated ∧ decodeAt .body [0xFF, 1, 2, 3] = .error .truncated ∧
    decodeAt .last [0, 0, 0, 0, 0, 0, 1, 0] = .error .notEnd ∧
    decodeAt .first [0x71, 0x6F, 0x69, 0x67, 0, 0, 1, 2, 0, 0, 0, 3, 4, 1] = .error .notHeader := by decide

/-- The same words from the encoder (30_encoding R81 to R90). -/
theorem test_encode_words :
    encode (.index 9) = [0x09] ∧ encode (.diff (-1) 0 0) = [0x5A] ∧ encode (.luma 12 (-2) (-4)) = [0xAC, 0x64] ∧
    encode (.run 62) = [0xFD] ∧ encode (.rgb 10 20 30) = [0xFE, 10, 20, 30] ∧
    encode (.rgba 10 20 30 128) = [0xFF, 10, 20, 30, 128] ∧
    encode (.header 258 3) = [0x71, 0x6F, 0x69, 0x66, 0, 0, 1, 2, 0, 0, 0, 3, 4, 1] := by decide

/-! ### The integer laws, on the spec's tables (95 sections 2.2, 2.3) -/

/-- The four multipliers, one at a time, and a wrap past 64. -/
theorem test_hash_table :
    (hashOf ⟨1, 0, 0, 0⟩).val = 3 ∧ (hashOf ⟨0, 1, 0, 0⟩).val = 5 ∧ (hashOf ⟨0, 0, 1, 0⟩).val = 7 ∧
    (hashOf ⟨0, 0, 0, 1⟩).val = 11 ∧ (hashOf ⟨0, 0, 0, 255⟩).val = 53 ∧ (hashOf ⟨10, 20, 30, 255⟩).val = 9 ∧
    (hashOf ⟨200, 100, 50, 128⟩).val = 42 := by decide

theorem test_delta_table :
    delta8 5 5 = 0 ∧ delta8 6 5 = 1 ∧ delta8 5 6 = -1 ∧ delta8 0 255 = 1 ∧ delta8 255 0 = -1 ∧ delta8 128 0 = -128 := by
  decide

/-! ### Small states -/

/-- The pixel step of `cur` is next: one pixel, with PREV, IDX and RUN as given. -/
def atPixel (prev cur : Pixel) (idx : Table) (run : Nat) : State :=
  { State.reset with
    prev := prev
    run := run
    idx := idx
    width := 1
    height := 1
    len := 4
    npix := 1
    phase := .busy
    input := Memory.writeAll [] 0 [cur.r, cur.g, cur.b, cur.a] }

/-- The pixel step of `cur` is next, as START leaves the working state. -/
def firstPixel (cur : Pixel) : State := atPixel Config.prevSeed cur Config.clearTable 0

/-- At rest with a START issued for a buffer of `len` zero bytes. -/
def starting (w h : U32) (len : Nat) : State :=
  { State.reset with width := w, height := h, len := len, startPending := true }

/-- FINISH is next, with a run pending. -/
def atFinish (run : Nat) : State := { State.reset with phase := .busy, run := run }

/-- A step's OUT, RUN and PHASE. -/
def outcome : Result → Option (List Byte × Nat × Phase)
  | .next s => some (s.out, s.run, s.phase)
  | .fault _ => none
  | .refused _ => none

/-- A step's PREV and one slot. -/
def remembered (k : Slot) : Result → Option (Pixel × Pixel)
  | .next s => some (s.prev, s.slot k)
  | .fault _ => none
  | .refused _ => none

/-! ### One step each -/

/-- 95 V-FRM-2: the header of a 258 by 3 encode. -/
theorem test_start_writes_header :
    outcome (step (starting 258 3 3096)) =
      some ([0x71, 0x6F, 0x69, 0x66, 0, 0, 1, 2, 0, 0, 0, 3, 4, 1], 0, .busy) := by decide

/-- 95 V-FRM-9: 4 * 2^31 * 2^31 is not 0; a product wrapped to 64 bits would pass. -/
theorem test_start_takes_malformed :
    ∃ t, step (starting 0x80000000 0x80000000 0) = .next t ∧ t.out = [] ∧ t.phase = .fault ∧ t.err = .malformedInput :=
  ⟨_, rfl, rfl, rfl, rfl⟩

/-- 45 R170: RGB for an opaque pixel far from PREV. -/
theorem test_rgb_step :
    outcome (step (firstPixel ⟨10, 20, 30, 255⟩)) = some ([0xFE, 10, 20, 30], 0, .busy) ∧
    remembered 9 (step (firstPixel ⟨10, 20, 30, 255⟩)) = some (⟨10, 20, 30, 255⟩, ⟨10, 20, 30, 255⟩) := by decide

/-- 45 R171: RGBA for a changed alpha. -/
theorem test_rgba_step :
    outcome (step (firstPixel ⟨10, 20, 30, 128⟩)) = some ([0xFF, 10, 20, 30, 128], 0, .busy) := by decide

/-- 95 V-FRM-10: (0,0,0,0) is INDEX 0 in a cleared table. -/
theorem test_index_step :
    outcome (step (firstPixel ⟨0, 0, 0, 0⟩)) = some ([0x00], 0, .busy) ∧
    remembered 0 (step (firstPixel ⟨0, 0, 0, 0⟩)) = some (⟨0, 0, 0, 0⟩, ⟨0, 0, 0, 0⟩) := by decide

/-- 95 S7: one opaque red pixel is DIFF -1,0,0, because the deltas wrap. -/
theorem test_diff_step : outcome (step (firstPixel ⟨255, 0, 0, 255⟩)) = some ([0x5A], 0, .busy) := by decide

/-- 44 R162, by hand: deltas 10, 12, 8 from (1,1,1) are LUMA 12,-2,-4, after the pending run's C2. -/
theorem test_luma_step :
    outcome (step (atPixel ⟨1, 1, 1, 255⟩ ⟨11, 13, 9, 255⟩ Config.clearTable 3)) =
      some ([0xC2, 0xAC, 0x64], 0, .busy) := by decide

/-- 42 R141: the 62nd run pixel is flushed, the 61st is not. -/
theorem test_run_step :
    outcome (step (atPixel Config.prevSeed Config.prevSeed Config.clearTable 61)) = some ([0xFD], 0, .busy) ∧
    outcome (step (atPixel Config.prevSeed Config.prevSeed Config.clearTable 60)) = some ([], 61, .busy) := by decide

/-- 95 S8: a pending run of two, then END. -/
theorem test_finish_step :
    outcome (step (atFinish 2)) = some ([0xC1, 0, 0, 0, 0, 0, 0, 0, 1], 0, .done) := by decide

/-- 20_memory R52: a fetch beyond LEN. -/
theorem test_fetch_beyond_len : outcome (step { firstPixel ⟨0, 0, 0, 0⟩ with len := 3 }) = none := by decide

/-! ### A table row's word, placed and run as the first form after reset -/

theorem test_placed_literals :
    outcome (step (State.reset.withFetchWord 32 0x1E140AFE)) = some ([0xFE, 10, 20, 30], 0, .busy) ∧
    outcome (step (State.reset.withFetchWord 40 0x801E140AFF)) = some ([0xFF, 10, 20, 30, 128], 0, .busy) := by decide

theorem test_placed_difference :
    outcome (step (State.reset.withFetchWord 8 0x5A)) = some ([0x5A], 0, .busy) ∧
    outcome (step (State.reset.withFetchWord 16 0x64AC)) = some ([0xAC, 0x64], 0, .busy) := by decide

theorem test_placed_index_and_run :
    outcome (step (State.reset.withFetchWord 8 0x09)) = some ([0x09], 0, .busy) ∧
    outcome (step (State.reset.withFetchWord 8 0xFD)) = some ([0xFD], 0, .busy) := by decide

theorem test_placed_frames :
    outcome (step (State.reset.withFetchWord 112 0x0104030000000201000066696F71)) =
      some ([0x71, 0x6F, 0x69, 0x66, 0, 0, 1, 2, 0, 0, 0, 3, 4, 1], 0, .busy) ∧
    outcome (step (State.reset.withFetchWord 64 0x0100000000000000)) =
      some ([0, 0, 0, 0, 0, 0, 0, 1], 0, .done) := by decide

/-- The two frames' rows as the table itself numbers them, byte 0 most significant (opcode_table.json). -/
theorem test_table_frames :
    decodeTableWord 112 0x716F696600000102000000030401 = some (.header 258 3) ∧
    decodeTableWord 64 0x0000000000000001 = some .endMark := by decide

/-! ### Witnesses: rest and the forms -/

theorem test_witness_RestChangesNothing :
    State.reset.phase ≠ .busy ∧ State.reset.startPending = false := by decide

theorem test_witness_RunFlushesThePendingRun :
    (1 ≤ (atFinish 1).run ∧ (atFinish 1).run ≤ 62) ∧ (1 ≤ (atFinish 62).run ∧ (atFinish 62).run ≤ 62) := by decide

theorem test_witness_IndexEmitsTheSlot :
    (firstPixel ⟨0, 0, 0, 0⟩).AtPixel ⟨0, 0, 0, 0⟩ ∧ (firstPixel ⟨0, 0, 0, 0⟩).run = 0 ∧
    (⟨0, 0, 0, 0⟩ : Pixel) ≠ (firstPixel ⟨0, 0, 0, 0⟩).prev ∧
    (firstPixel ⟨0, 0, 0, 0⟩).slot (hashOf ⟨0, 0, 0, 0⟩) = ⟨0, 0, 0, 0⟩ := by decide

/-- DIFF at both ends of its ranges: deltas -2, 1, -2 from PREV (0,0,0). -/
theorem test_witness_DiffEmitsThreeSmallDeltas :
    let cur : Pixel := ⟨254, 1, 254, 255⟩
    let s := firstPixel cur
    s.AtPixel cur ∧ s.run = 0 ∧ cur ≠ s.prev ∧ s.slot (hashOf cur) ≠ cur ∧ cur.a = s.prev.a ∧
    (-2 = delta8 cur.r s.prev.r ∧ 1 = delta8 cur.g s.prev.g ∧ -2 = delta8 cur.b s.prev.b) := by decide

/-- LUMA at both ends of its ranges: dg = -32 with offsets -8 and 7, dg = 31 with offsets 7 and -8. -/
theorem test_witness_LumaEmitsGreenAndTwoOffsets :
    (let cur : Pixel := ⟨216, 224, 231, 255⟩
     let s := firstPixel cur
     s.AtPixel cur ∧ s.run = 0 ∧ cur ≠ s.prev ∧ s.slot (hashOf cur) ≠ cur ∧ cur.a = s.prev.a ∧
     (-40 = delta8 cur.r s.prev.r ∧ -32 = delta8 cur.g s.prev.g ∧ -25 = delta8 cur.b s.prev.b)) ∧
    (let cur : Pixel := ⟨38, 31, 23, 255⟩
     let s := firstPixel cur
     s.AtPixel cur ∧ s.run = 0 ∧ cur ≠ s.prev ∧ s.slot (hashOf cur) ≠ cur ∧ cur.a = s.prev.a ∧
     (38 = delta8 cur.r s.prev.r ∧ 31 = delta8 cur.g s.prev.g ∧ 23 = delta8 cur.b s.prev.b)) := by decide

/-- RGB one beyond LUMA on either side: dg = 32, dg = -33, an offset of 8. -/
theorem test_witness_RgbEmitsThreeRawChannels :
    ∀ cur ∈ ([⟨32, 32, 32, 255⟩, ⟨223, 223, 223, 255⟩, ⟨28, 20, 20, 255⟩] : List Pixel),
      (firstPixel cur).AtPixel cur ∧ (firstPixel cur).run = 0 ∧ cur ≠ (firstPixel cur).prev ∧
      (firstPixel cur).slot (hashOf cur) ≠ cur ∧ cur.a = (firstPixel cur).prev.a ∧
      ¬ SmallOk (delta cur (firstPixel cur).prev) ∧ ¬ LumaOk (delta cur (firstPixel cur).prev) := by decide

theorem test_witness_RgbaEmitsFourRawChannels :
    let cur : Pixel := ⟨0, 0, 0, 254⟩
    let s := firstPixel cur
    s.AtPixel cur ∧ s.run = 0 ∧ cur ≠ s.prev ∧ s.slot (hashOf cur) ≠ cur ∧ cur.a ≠ s.prev.a := by decide

/-- Each of the five pixel opcodes answers a next state somewhere. -/
theorem test_witness_PixelOpcodeFrame :
    ∀ p ∈ ([(⟨0, 0, 0, 0⟩, .index 0), (⟨255, 0, 0, 255⟩, .diff (-1) 0 0), (⟨10, 12, 8, 255⟩, .luma 12 (-2) (-4)),
        (⟨10, 20, 30, 255⟩, .rgb 10 20 30), (⟨10, 20, 30, 128⟩, .rgba 10 20 30 128)] : List (Pixel × Instr)),
      p.2.position = .body ∧ p.2.wellFormed = true ∧ (outcome (exec p.2 (firstPixel p.1))).isSome = true := by decide

theorem test_witness_FrameAndRunFrame :
    (outcome (exec (.header 258 3) State.reset)).isSome = true ∧ (outcome (exec .endMark State.reset)).isSome = true ∧
    (outcome (exec (.run 62) (atFinish 62))).isSome = true := by decide

theorem test_witness_ExactlyOnePixelOpcodeRuns :
    let cur : Pixel := ⟨10, 20, 30, 255⟩
    let s := firstPixel cur
    s.AtPixel cur ∧ s.run = 0 ∧ cur ≠ s.prev ∧ select cur s.prev s.idx = .rgb 10 20 30 := by decide

/-- Not enabled at reset; a fetch beyond LEN; a pending run; a run pixel; another opcode's pixel. -/
theorem test_witness_PixelOpcodeStopsElsewhere :
    ¬ State.reset.PixelEnabled ∧
    (State.PixelEnabled { firstPixel ⟨0, 0, 0, 0⟩ with len := 3 } ∧
      State.fetchPixel { firstPixel ⟨0, 0, 0, 0⟩ with len := 3 } 0 = none) ∧
    ((atPixel Config.prevSeed ⟨0, 0, 0, 0⟩ Config.clearTable 1).AtPixel ⟨0, 0, 0, 0⟩ ∧
      (atPixel Config.prevSeed ⟨0, 0, 0, 0⟩ Config.clearTable 1).run ≠ 0) ∧
    (firstPixel Config.prevSeed).AtPixel (firstPixel Config.prevSeed).prev ∧
    ((firstPixel ⟨0, 0, 0, 0⟩).AtPixel ⟨0, 0, 0, 0⟩ ∧
      Instr.rgba 0 0 0 0 ≠ select ⟨0, 0, 0, 0⟩ (firstPixel ⟨0, 0, 0, 0⟩).prev (firstPixel ⟨0, 0, 0, 0⟩).idx) := by decide

theorem test_witness_RunStopsWithoutItsRun :
    1 ≠ State.reset.run ∧ (0 = State.reset.run) ∧ (63 = (atFinish 63).run ∧ 62 < 63) := by decide

/-! ### Witnesses: encodings and integer laws -/

theorem test_witness_DecodingUndoesEncoding :
    (Instr.luma (-32) (-8) 7).wellFormed = true ∧ (Instr.run 62).wellFormed = true ∧
    (Instr.header 0xFFFFFFFF 0).wellFormed = true := by decide

theorem test_witness_EncodingUndoesDecoding :
    decodeAt .body [0xFD, 0x80] = .ok (.run 62, [0x80]) ∧
    decodeAt .first [0x71, 0x6F, 0x69, 0x66, 255, 255, 255, 255, 0, 0, 0, 0, 4, 1, 9]
      = .ok (.header 0xFFFFFFFF 0, [9]) ∧
    decodeAt .last [0, 0, 0, 0, 0, 0, 0, 1, 2] = .ok (.endMark, [2]) := by decide

/-- The ends of each opcode's first bytes (30_encoding R84). -/
theorem test_witness_FirstByteFixesOpcodeAndLength :
    decodeAt .body [0x00, 1, 2, 3, 4] = .ok (.index 0, [1, 2, 3, 4]) ∧
    decodeAt .body [0x3F, 1, 2, 3, 4] = .ok (.index 63, [1, 2, 3, 4]) ∧
    decodeAt .body [0x40, 1, 2, 3, 4] = .ok (.diff (-2) (-2) (-2), [1, 2, 3, 4]) ∧
    decodeAt .body [0x7F, 1, 2, 3, 4] = .ok (.diff 1 1 1, [1, 2, 3, 4]) ∧
    decodeAt .body [0x80, 1, 2, 3, 4] = .ok (.luma (-32) (-8) (-7), [2, 3, 4]) ∧
    decodeAt .body [0xBF, 1, 2, 3, 4] = .ok (.luma 31 (-8) (-7), [2, 3, 4]) ∧
    decodeAt .body [0xC0, 1, 2, 3, 4] = .ok (.run 1, [1, 2, 3, 4]) ∧
    decodeAt .body [0xFD, 1, 2, 3, 4] = .ok (.run 62, [1, 2, 3, 4]) ∧
    decodeAt .body [0xFE, 1, 2, 3, 4] = .ok (.rgb 1 2 3, [4]) ∧
    decodeAt .body [0xFF, 1, 2, 3, 4] = .ok (.rgba 1 2 3 4, []) := by decide

/-- A difference far outside 8 bits with dg in its range (dr = 127, dg = -32: 159 wraps to -97), and LUMA at both ends of
its ranges, by the bytes of 95's LUMA table. -/
theorem test_witness_WrappingLumaDifferencesIsHarmless :
    (let d := delta ⟨127, 224, 0, 255⟩ ⟨0, 0, 0, 255⟩
     d.dg = -32 ∧ d.dgr = 159 ∧ sint8 (d.dgr % 256).toNat = -97 ∧ ¬ LumaOk d) ∧
    (let d := delta ⟨60, 68, 60, 255⟩ ⟨100, 100, 100, 255⟩
     LumaOk d ∧ encode (.luma d.dg d.dgr d.dgb) = [0x80, 0x00]) ∧
    (let d := delta ⟨138, 131, 138, 255⟩ ⟨100, 100, 100, 255⟩
     LumaOk d ∧ encode (.luma d.dg d.dgr d.dgb) = [0xBF, 0xFF]) := by decide

theorem test_witness_UnsignedFormsAgree :
    SmallOkUnsigned (wrapDiff 254 0) ∧ SmallOkUnsigned (wrapDiff 1 0) ∧ ¬ SmallOkUnsigned (wrapDiff 2 0) ∧
    GreenOkUnsigned (wrapDiff 224 0) ∧ GreenOkUnsigned (wrapDiff 31 0) ∧ ¬ GreenOkUnsigned (wrapDiff 32 0) ∧
    OffsetOkUnsigned (wrapDiff 216 0) (wrapDiff 224 0) ∧ OffsetOkUnsigned (wrapDiff 38 0) (wrapDiff 31 0) ∧
    ¬ OffsetOkUnsigned (wrapDiff 39 0) (wrapDiff 31 0) := by decide

theorem test_witness_SelectedOpcodeDenotesThePixel :
    (⟨255, 0, 0, 255⟩ : Pixel) ≠ Config.prevSeed ∧
    select ⟨255, 0, 0, 255⟩ Config.prevSeed Config.clearTable = .diff (-1) 0 0 := by decide

theorem test_witness_ChangedAlphaIsIndexOrRgba :
    (⟨0, 0, 0, 0⟩ : Pixel).a ≠ Config.prevSeed.a ∧ Hits ⟨0, 0, 0, 0⟩ Config.clearTable ∧
    (⟨0, 0, 0, 1⟩ : Pixel).a ≠ Config.prevSeed.a ∧ ¬ Hits ⟨0, 0, 0, 1⟩ Config.clearTable := by decide

/-! ### Witnesses: the steps -/

theorem test_witness_StepRunsTheSelectedOpcode :
    ∀ run ∈ [0, 61],
      (atPixel Config.prevSeed ⟨10, 20, 30, 255⟩ Config.clearTable run).AtPixel ⟨10, 20, 30, 255⟩ ∧
      (⟨10, 20, 30, 255⟩ : Pixel) ≠ (atPixel Config.prevSeed ⟨10, 20, 30, 255⟩ Config.clearTable run).prev := by decide

theorem test_witness_StepRunsTheFrames :
    ((starting 258 3 3096).Starting ∧ (starting 258 3 3096).LengthOk) ∧
    ((atFinish 61).phase = .busy ∧ (atFinish 61).pos = (atFinish 61).npix) := by decide

theorem test_witness_RunPixelIsCountedOrFlushedAtTheCap :
    ∀ run ∈ [0, 60, 61], (atPixel Config.prevSeed Config.prevSeed Config.clearTable run).AtPixel Config.prevSeed := by
  decide

theorem test_witness_OtherPixelIsFlushedForThenEncoded :
    ∀ run ∈ [0, 61],
      (atPixel Config.prevSeed ⟨0, 0, 0, 0⟩ Config.clearTable run).AtPixel ⟨0, 0, 0, 0⟩ ∧
      (⟨0, 0, 0, 0⟩ : Pixel) ≠ Config.prevSeed := by decide

/-- Every state at rest goes on, one with a host's START among them; in BUSY see `test_witness_EncodeNeverStops`. -/
theorem test_witness_EncodeNeverStops_atRest :
    (starting 0 5 4).phase ≠ .busy ∧ State.reset.phase ≠ .busy := by decide

theorem test_witness_StartBeginsAnEncode :
    (starting 258 3 3096).Starting ∧
    (starting 258 3 3096).len = 4 * (starting 258 3 3096).width.toNat * (starting 258 3 3096).height.toNat := by decide

theorem test_witness_MalformedInputIsTaken :
    (starting 0 5 4).Starting ∧ ¬ (starting 0 5 4).LengthOk := by decide

theorem test_witness_FinishFlushesAndCloses :
    ∀ run ∈ [0, 61], (atFinish run).phase = .busy ∧ (atFinish run).pos = (atFinish run).npix ∧ (atFinish run).run ≤ 61 := by
  decide

/-- A pixel step, and a step that is neither a pixel step nor a START. -/
theorem test_witness_PositionMovesByOneInPixelStepsOnly :
    ((firstPixel ⟨0, 0, 0, 0⟩).PixelEnabled ∧ (firstPixel ⟨0, 0, 0, 0⟩).GoesOn) ∧
    (¬ (atFinish 0).PixelEnabled ∧ ¬ (atFinish 0).Starting ∧ (atFinish 0).GoesOn) :=
  ⟨⟨by decide, _, rfl⟩, by decide, by decide, _, rfl⟩

/-- Every kind of step: pixel, FINISH, a START of either end, rest. -/
theorem test_witness_PhaseFollowsItsTransitions :
    (firstPixel ⟨0, 0, 0, 0⟩).GoesOn ∧ (atFinish 0).GoesOn ∧ (starting 0 7 0).GoesOn ∧ (starting 0 5 4).GoesOn ∧
    State.reset.GoesOn :=
  ⟨⟨_, rfl⟩, ⟨_, rfl⟩, ⟨_, rfl⟩, ⟨_, rfl⟩, ⟨_, rfl⟩⟩

theorem test_witness_ErrorIsWrittenByStartOnly :
    ((starting 0 7 0).Starting ∧ (starting 0 7 0).GoesOn) ∧ ((starting 0 5 4).Starting ∧ (starting 0 5 4).GoesOn) ∧
    (¬ State.reset.Starting ∧ State.reset.GoesOn) :=
  ⟨⟨by decide, _, rfl⟩, ⟨by decide, _, rfl⟩, by decide, _, rfl⟩

theorem test_witness_InputIsNeverWritten : (firstPixel ⟨10, 20, 30, 255⟩).GoesOn := ⟨_, rfl⟩

theorem test_witness_OutputOnlyGrows :
    ((firstPixel ⟨10, 20, 30, 128⟩).pos < (firstPixel ⟨10, 20, 30, 128⟩).npix ∧ (firstPixel ⟨10, 20, 30, 128⟩).GoesOn) ∧
    ((atFinish 61).pos = (atFinish 61).npix ∧ (atFinish 61).GoesOn) :=
  ⟨⟨by decide, _, rfl⟩, by decide, _, rfl⟩

theorem test_witness_OnlyAFetchBeyondLenFaults :
    step { firstPixel ⟨0, 0, 0, 0⟩ with len := 3 } = .fault .inputOutOfRange := rfl

theorem test_witness_StartForgetsEarlierEncodes :
    let s := starting 0 7 0
    let u := { starting 0 7 0 with phase := .done, out := [1, 2, 3], prev := ⟨9, 9, 9, 9⟩, run := 5 }
    s.Starting ∧ u.Starting ∧ s.width = u.width ∧ s.height = u.height ∧ s.len = u.len ∧ s.input = u.input ∧
    s.LengthOk := by decide

theorem test_witness_StepIgnoresDimensionsAndEarlierOutput :
    (firstPixel ⟨0, 0, 0, 0⟩).phase = .busy ∧ (firstPixel ⟨0, 0, 0, 0⟩).out = [] ∧ (firstPixel ⟨0, 0, 0, 0⟩).GoesOn :=
  ⟨rfl, rfl, _, rfl⟩

theorem test_witness_HostMovesAtRestOnly :
    (State.reset.phase ≠ .busy ∧ State.reset.startPending = false) ∧ (atFinish 0).phase = .busy := by decide

theorem test_witness_HostWriteReachesOneByte :
    Memory.wf State.reset.input = true ∧ ∃ t, hostWriteIn 7 9 State.reset = .next t := ⟨rfl, _, rfl⟩

theorem test_witness_LoadedPixelsAreFetched :
    Memory.wf State.reset.input = true ∧
    ∃ t, hostLoad ([(⟨1, 2, 3, 4⟩ : Pixel), ⟨0, 0, 0, 9⟩].flatMap fun p => [p.r, p.g, p.b, p.a]) State.reset = .next t ∧
      t.fetchPixel 0 = some ⟨1, 2, 3, 4⟩ ∧ t.fetchPixel 1 = some ⟨0, 0, 0, 9⟩ ∧ t.fetchPixel 2 = none :=
  ⟨rfl, _, rfl, by decide, by decide, by decide⟩

theorem test_witness_StretchOfRunPixels :
    let s := { firstPixel ⟨0, 0, 0, 0⟩ with npix := 63, len := 252, prev := ⟨0, 0, 0, 0⟩, run := 61, input := [] }
    s.phase = .busy ∧ s.run ≤ 61 ∧ s.pos + 63 ≤ s.npix ∧
    (∀ i, i < s.pos + 63 → s.fetchPixel i = some s.prev) := by decide

theorem test_witness_EncodeIsLosslessAndTerminates :
    ((starting 0xFFFFFFFF 0 0).Starting ∧ (starting 0xFFFFFFFF 0 0).LengthOk) ∧
    ((starting 2 3 24).Starting ∧ (starting 2 3 24).LengthOk) := by decide

theorem test_witness_MalformedEncodeRestsInFault :
    (starting 65536 65536 0).Starting ∧ ¬ (starting 65536 65536 0).LengthOk := by decide

/-! ### Witnesses: the invariant in each phase -/

/-- A START of a 1 by 1 image whose pixel is (0,0,0,0), and what it leaves. -/
theorem test_witness_OnlyZeroPixelHitsTheClearedTable :
    (starting 1 1 4).Starting ∧ (starting 1 1 4).LengthOk ∧ (starting 1 1 4).GoesOn :=
  ⟨by decide, by decide, _, rfl⟩

/-- In an encode, before its first pixel: the header is out. -/
def inEncode : State := { firstPixel ⟨0, 0, 0, 0⟩ with out := encode (.header 1 1) }

theorem inEncode_inv : inEncode.Inv :=
  ⟨by decide, rfl,
    { runBound := by decide
      posBound := by decide
      lenIs := by decide
      npixIs := by decide
      prevIs := by decide
      runWithin := by decide
      runPixels := fun i _ h => absurd h (Nat.not_lt_zero i)
      slotsHashed := by decide
      prevStored := by decide
      headerFirst := by decide
      outLow := by decide
      outHigh := by decide
      outEnough := by decide
      reads := by decide }⟩

/-- At DONE: the output of the 1 by 1 image (0,0,0,0) (95 V-FRM-10). -/
def atDone : State :=
  { inEncode with
    out := encode (.header 1 1) ++ [0x00] ++ encode .endMark
    prev := ⟨0, 0, 0, 0⟩
    pos := 1
    phase := .done }

theorem atDone_inv : atDone.Inv :=
  ⟨by decide, rfl,
    { runZero := by decide
      posIs := by decide
      npixIs := by decide
      headerFirst := by decide
      endLast := by decide
      outLow := by decide
      outHigh := by decide
      outEnough := by decide
      reads := by decide }⟩

theorem test_witness_IndexNeverNamesThePreviousSlot :
    inEncode.EncodeInv ∧ ∃ t, exec (.index 0) inEncode = .next t := ⟨inEncode_inv.2.2, _, rfl⟩

/-- Each of the four moments; 95 V-FRM-10's output has 23 bytes. -/
theorem test_witness_OutputIsVisibleAtDoneOnly :
    (atDone.phase = .done ∧ hostReadOutLen atDone = some 23) ∧ inEncode.phase ≠ .done ∧
    State.reset.takeMalformedInput.phase = .fault ∧ State.reset.phase ≠ .fault := by decide

/-- After a host move at DONE that leaves the invariant (another WIDTH), both ends of a START enter it again. -/
theorem test_witness_StartEstablishesTheInvariant :
    (let s := { atDone with width := 3, startPending := true }
     Memory.wf s.input = true ∧ s.Starting ∧ ¬ s.LengthOk ∧ s.GoesOn) ∧
    (let s := { atDone with width := 0, len := 0, startPending := true }
     Memory.wf s.input = true ∧ s.Starting ∧ s.LengthOk ∧ s.GoesOn) :=
  ⟨⟨rfl, by decide, by decide, _, rfl⟩, rfl, by decide, by decide, _, rfl⟩

theorem test_witness_HostMovesKeepTheMachineReady :
    Memory.wf atDone.input = true ∧ (∃ t, hostLoad [1, 0, 2, 3] atDone = .next t) ∧
    (∃ t, hostWriteIn 0 9 atDone = .next t) ∧ (∃ t, hostWriteLen 8 atDone = .next t) ∧
    (∃ t, hostWriteSize 3 1 atDone = .next t) ∧ ∃ t, hostStart atDone = .next t :=
  ⟨rfl, ⟨_, rfl⟩, ⟨_, rfl⟩, ⟨_, rfl⟩, ⟨_, rfl⟩, _, rfl⟩

theorem test_witness_EncodeNeverStops : inEncode.Inv ∧ atDone.Inv := ⟨inEncode_inv, atDone_inv⟩

theorem test_witness_StepKeepsTheInvariant :
    (inEncode.Inv ∧ inEncode.GoesOn) ∧ (atDone.Inv ∧ atDone.GoesOn) :=
  ⟨⟨inEncode_inv, _, rfl⟩, atDone_inv, _, rfl⟩

end Sys2Proof.Tests
end

/-! ### Decoding and encoding an opcode -/
namespace Sys2Proof

/-- Every well-formed form is read back from its bytes at its position, whatever follows (30_encoding R81 to R91). -/
theorem decodeAt_encode (i : Instr) (rest : List Byte) (hw : i.wellFormed = true) :
    decodeAt i.position (encode i ++ rest) = .ok (i, rest) := by
  cases i with
  | header w h =>
    simp [Instr.position, decodeAt, encode, Config.magic, bytesBE, decodeHeader, wordBE_bytes]
  | rgb r g b => simp [Instr.position, decodeAt, encode, decodeOpcode, decodeRgb]
  | rgba r g b a => simp [Instr.position, decodeAt, encode, decodeOpcode, decodeRgba]
  | index s =>
    obtain ⟨hFE, hFF, htag, hslot⟩ := indexByte_fields s.val s.isLt
    simp only [Instr.position, decodeAt, encode, List.cons_append, List.nil_append, decodeOpcode,
      if_neg hFE, if_neg hFF, if_pos htag, decodeIndex, hslot]
  | diff dr dg db =>
    obtain ⟨hr, hg, hb⟩ := wellFormed_diff.1 hw
    obtain ⟨hFE, hFF, htag, her, heg, heb⟩ := diffByte_fields (dr + 2).toNat (by omega)
      (dg + 2).toNat (by omega) (db + 2).toNat (by omega)
    simp only [Instr.position, decodeAt, encode, List.cons_append, List.nil_append, decodeOpcode,
      if_neg hFE, if_neg hFF, htag, decodeDiff, her, heg, heb, Nat.one_ne_zero, if_false, if_true]
    congr <;> omega
  | luma dg dgr dgb =>
    obtain ⟨hg, hr, hb⟩ := wellFormed_luma.1 hw
    obtain ⟨hFE, hFF, htag, heg⟩ := lumaByte0_fields (dg + 32).toNat (by omega)
    obtain ⟨her, heb⟩ := lumaByte1_fields (dgr + 8).toNat (by omega) (dgb + 8).toNat (by omega)
    simp only [Instr.position, decodeAt, encode, List.cons_append, List.nil_append, decodeOpcode,
      if_neg hFE, if_neg hFF, htag, decodeLuma, her, heg, heb, OfNat.ofNat_ne_zero, OfNat.ofNat_ne_one,
      if_false, if_true]
    congr <;> omega
  | run n =>
    have hn := wellFormed_run.1 hw
    obtain ⟨hFE, hFF, htag, hlow⟩ := runByte_fields (n - 1) (by omega)
    simp only [Instr.position, decodeAt, encode, List.cons_append, List.nil_append, decodeOpcode,
      if_neg hFE, if_neg hFF, htag, decodeRun, hlow, OfNat.ofNat_ne_zero, OfNat.ofNat_ne_one, if_false]
    simp [hn.1]
  | endMark => simp [Instr.position, decodeAt, encode, endBytes, decodeEnd]

/-- The bytes begin with the encoding of a well-formed opcode, and `rest` follows it (30_encoding R84, R94). -/
structure OpcodeAt (bs : List Byte) (i : Instr) (rest : List Byte) : Prop where
  wellFormed : i.wellFormed = true
  position : i.position = .body
  bytes : bs = encode i ++ rest

theorem opcodeAt_of_decodeRgb {bs rest : List Byte} {i : Instr} (h : decodeRgb bs = .ok (i, rest)) :
    OpcodeAt (0xFE :: bs) i rest := by
  unfold decodeRgb at h
  split at h
  · cases h; exact ⟨rfl, rfl, rfl⟩
  · cases h

theorem opcodeAt_of_decodeRgba {bs rest : List Byte} {i : Instr} (h : decodeRgba bs = .ok (i, rest)) :
    OpcodeAt (0xFF :: bs) i rest := by
  unfold decodeRgba at h
  split at h
  · cases h; exact ⟨rfl, rfl, rfl⟩
  · cases h

theorem opcodeAt_decodeIndex {b0 : Byte} (htag : fieldOf b0 6 2 = 0) (rest : List Byte) :
    OpcodeAt (b0 :: rest) (decodeIndex b0) rest := by
  refine ⟨rfl, rfl, ?_⟩
  simp only [decodeIndex, encode, (byte_of_tag6 b0).1 htag, List.cons_append, List.nil_append]

theorem opcodeAt_decodeDiff {b0 : Byte} (htag : fieldOf b0 6 2 = 1) (rest : List Byte) :
    OpcodeAt (b0 :: rest) (decodeDiff b0) rest := by
  have hr := fieldOf_lt b0 4 2
  have hg := fieldOf_lt b0 2 2
  have hb := fieldOf_lt b0 0 2
  refine ⟨wellFormed_diff.2 (by omega), rfl, ?_⟩
  simp only [decodeDiff, encode, Int.sub_add_cancel, Int.toNat_natCast, byte_of_tag222 b0 htag,
    List.cons_append, List.nil_append]

theorem opcodeAt_of_decodeLuma {b0 : Byte} {bs rest : List Byte} {i : Instr} (htag : fieldOf b0 6 2 = 2)
    (h : decodeLuma b0 bs = .ok (i, rest)) : OpcodeAt (b0 :: bs) i rest := by
  cases bs with
  | nil => cases h
  | cons b1 bs =>
    cases h
    have hg := fieldOf_lt b0 0 6
    have hr := fieldOf_lt b1 4 4
    have hb := fieldOf_lt b1 0 4
    refine ⟨wellFormed_luma.2 (by omega), rfl, ?_⟩
    simp only [encode, Int.sub_add_cancel, Int.toNat_natCast, (byte_of_tag6 b0).2.1 htag, byte_of_nibbles b1,
      List.cons_append, List.nil_append]

theorem opcodeAt_decodeRun {b0 : Byte} (hFE : b0 ≠ 0xFE) (hFF : b0 ≠ 0xFF) (htag : fieldOf b0 6 2 = 3)
    (rest : List Byte) : OpcodeAt (b0 :: rest) (decodeRun b0) rest := by
  have hlow := runPayload_le b0 hFE hFF htag
  refine ⟨wellFormed_run.2 (by omega), rfl, ?_⟩
  simp only [decodeRun, encode, Nat.add_sub_cancel, (byte_of_tag6 b0).2.2 htag, List.cons_append, List.nil_append]

/-- What decodes in the body of a stream is the encoding of a well-formed opcode (30_encoding R84 to R91). -/
theorem opcodeAt_of_decodeAt_body {bs rest : List Byte} {i : Instr} (h : decodeAt .body bs = .ok (i, rest)) :
    OpcodeAt bs i rest := by
  cases bs with
  | nil => cases h
  | cons b0 bs =>
    simp only [decodeAt, decodeOpcode] at h
    split at h
    · next hFE => exact hFE ▸ opcodeAt_of_decodeRgb h
    split at h
    · next hFF => exact hFF ▸ opcodeAt_of_decodeRgba h
    split at h
    · next htag => cases h; exact opcodeAt_decodeIndex htag _
    split at h
    · next htag => cases h; exact opcodeAt_decodeDiff htag _
    split at h
    · next htag => exact opcodeAt_of_decodeLuma htag h
    · next hFE hFF h0 h1 h2 =>
      cases h
      have htag : fieldOf b0 6 2 < 4 := fieldOf_lt b0 6 2
      exact opcodeAt_decodeRun hFE hFF (by omega) _

end Sys2Proof

/-! ### What the reader makes of the encoder's output -/
namespace Sys2Proof.Machine

/-- The channel that a delta leads back to is the current one (44 R163). -/
theorem addDelta_delta8 (c p : Byte) : addDelta p (delta8 c p) = c := by
  have hc := c.isLt
  have hp := p.isLt
  apply BitVec.eq_of_toNat_eq
  simp only [addDelta, BitVec.toNat_ofInt, delta8, sint8, wrapDiff]
  split_ifs <;> omega

/-- To a reader with the encoder's PREV and table, the selected opcode denotes the pixel (44 R163, 45 R170, R171). -/
theorem Reader.take_select {cur prev : Pixel} (idx : Table) (px : List Pixel) (h : cur ≠ prev) :
    Reader.take ⟨prev, idx, px⟩ (select cur prev idx) = Reader.see ⟨prev, idx, px⟩ cur := by
  obtain ⟨hc, e⟩ | ⟨hc, e⟩ | ⟨hc, e⟩ | ⟨hc, e⟩ | ⟨hc, e⟩ := select_cases idx h <;> rw [e]
  · have hhit : idx.get (hashOf cur) = cur := hc.2
    simp only [Reader.take, hhit]
  · have ha : cur.a = prev.a := hc.1.2.2
    simp only [Reader.take, delta, addDelta_delta8, ← ha]
  · have ha : cur.a = prev.a := hc.1.2.2
    simp only [Reader.take, Deltas.dgr, Deltas.dgb, add_sub_cancel, delta, addDelta_delta8, ← ha]
  · have ha : cur.a = prev.a := hc.1.2.2
    simp only [Reader.take, ← ha]
  · rfl

/-- The bytes that follow an opcode do not change how it decodes. -/
theorem decodeAt_body_append {bs rest : List Byte} {i : Instr} (h : decodeAt .body bs = .ok (i, rest))
    (cs : List Byte) : decodeAt .body (bs ++ cs) = .ok (i, rest ++ cs) := by
  obtain ⟨hw, hp, rfl⟩ := opcodeAt_of_decodeAt_body h
  rw [List.append_assoc, ← hp]
  exact decodeAt_encode i _ hw

/-- The reader goes on from where a first stretch of opcodes left it. -/
theorem Reader.readAll_append {d' d'' : Reader} {g : Nat} {cs : List Byte}
    (h' : Reader.readAll g d' cs = some d'') : ∀ (f : Nat) (d : Reader) (bs : List Byte),
    Reader.readAll f d bs = some d' → Reader.readAll (f + g) d (bs ++ cs) = some d'' := by
  intro f
  induction f with
  | zero =>
    intro d bs h
    cases bs with
    | nil => cases h; rwa [Nat.zero_add]
    | cons b bs => cases h
  | succ f ih =>
    intro d bs h
    cases bs with
    | nil => cases h; exact Reader.readAll_mono g _ _ _ (by omega) h'
    | cons b bs =>
      simp only [Reader.readAll] at h
      split at h
      · next i rest hdec =>
        have hdec' : decodeAt .body (b :: (bs ++ cs)) = .ok (i, rest ++ cs) := decodeAt_body_append hdec cs
        rw [Nat.succ_add, List.cons_append, Reader.readAll, hdec']
        exact ih _ _ h
      · cases h

/-- Every form's layout has the form's length (20_memory R61, 30_encoding R83). -/
theorem encode_length : ∀ i : Instr, (encode i).length = i.size
  | .header w h => Laws.EncodedSize.header w h
  | .rgb r g b => Laws.EncodedSize.rgb r g b
  | .rgba r g b a => Laws.EncodedSize.rgba r g b a
  | .index s => Laws.EncodedSize.index s
  | .diff dr dg db => Laws.EncodedSize.diff dr dg db
  | .luma dg dgr dgb => Laws.EncodedSize.luma dg dgr dgb
  | .run n => Laws.EncodedSize.run n
  | .endMark => Laws.EncodedSize.endMark

/-- One opcode, read by itself. -/
theorem Reader.readAll_encode (d : Reader) {i : Instr} (hw : i.wellFormed = true) (hp : i.position = .body) :
    Reader.readAll (encode i).length d (encode i) = some (d.take i) := by
  have hdec := decodeAt_encode i [] hw
  rw [hp, List.append_nil] at hdec
  cases he : encode i with
  | nil => rw [he] at hdec; cases hdec
  | cons b bs =>
    rw [he] at hdec
    rw [List.length_cons, Reader.readAll, hdec]
    cases bs.length <;> rfl

/-- A well-formed opcode appended to a stretch of opcodes adds what it denotes. -/
theorem readOpcodes_append_encode {bs : List Byte} {d : Reader} {i : Instr} (h : readOpcodes bs = some d)
    (hw : i.wellFormed = true) (hp : i.position = .body) : readOpcodes (bs ++ encode i) = some (d.take i) := by
  rw [readOpcodes, List.length_append]
  exact Reader.readAll_append (Reader.readAll_encode d hw hp) _ _ _ h

/-- Reading opcodes never takes pixels back. -/
theorem Reader.readAll_pixels_le {d' : Reader} : ∀ (f : Nat) (d : Reader) (bs : List Byte),
    Reader.readAll f d bs = some d' → d.pixels.length ≤ d'.pixels.length := by
  intro f
  induction f with
  | zero =>
    intro d bs h
    cases bs with
    | nil => cases h; exact Nat.le_refl _
    | cons b bs => cases h
  | succ f ih =>
    intro d bs h
    cases bs with
    | nil => cases h; exact Nat.le_refl _
    | cons b bs =>
      simp only [Reader.readAll] at h
      split at h
      · next i rest hdec =>
        obtain ⟨hw, hp, -⟩ := opcodeAt_of_decodeAt_body hdec
        exact (Reader.take_pixels_lt d hw hp).le.trans (ih _ _ h)
      · cases h

theorem decodeAt_last_endMark : decodeAt .last (encode .endMark) = .ok (.endMark, []) :=
  decodeAt_encode .endMark [] rfl

/-- With all its pixels read, the reader requires END. -/
theorem Reader.readImage_endMark {n : Nat} {d : Reader} (hn : n ≤ d.pixels.length) (f : Nat) :
    Reader.readImage n f d (encode .endMark) = some d.pixels := by
  cases f with
  | zero => rw [Reader.readImage, if_pos ⟨hn, decodeAt_last_endMark⟩]
  | succ f => rw [Reader.readImage, if_pos hn, if_pos decodeAt_last_endMark]

/-- A reader of the whole image takes the same opcodes, up to END, as a reader of opcodes alone. -/
theorem Reader.readImage_of_readAll {d' : Reader} : ∀ (f : Nat) (d : Reader) (bs : List Byte),
    Reader.readAll f d bs = some d' → ∀ g, f ≤ g →
    Reader.readImage d'.pixels.length g d (bs ++ encode .endMark) = some d'.pixels := by
  intro f
  induction f with
  | zero =>
    intro d bs h g _
    cases bs with
    | nil => cases h; exact Reader.readImage_endMark (Nat.le_refl _) g
    | cons b bs => cases h
  | succ f ih =>
    intro d bs h g hg
    cases bs with
    | nil => cases h; exact Reader.readImage_endMark (Nat.le_refl _) g
    | cons b bs =>
      obtain ⟨g, rfl⟩ : ∃ g', g = g' + 1 := ⟨g - 1, by omega⟩
      simp only [Reader.readAll] at h
      split at h
      · next i rest hdec =>
        obtain ⟨hw, hp, -⟩ := opcodeAt_of_decodeAt_body hdec
        have hmore : d.pixels.length < d'.pixels.length :=
          (Reader.take_pixels_lt d hw hp).trans_le (Reader.readAll_pixels_le f _ _ h)
        rw [Reader.readImage, if_neg (by omega), decodeAt_body_append hdec]
        exact ih _ _ h g (by omega)
      · cases h

end Sys2Proof.Machine

/-! ### An output that represents pixels -/
namespace Sys2Proof.Machine

/-- How many pixels an opcode denotes (30_encoding R88: RUN n is n pixels; every other opcode is one). -/
def pixelCount : Instr → Nat
  | .run n => n
  | _ => 1

theorem Reader.take_pixels_length (d : Reader) {i : Instr} (hp : i.position = .body) :
    (d.take i).pixels.length = d.pixels.length + pixelCount i := by
  cases i <;> simp [Reader.take, Reader.see, pixelCount, Instr.position] at *

/-- An opcode has at most five bytes for each pixel it denotes, which are at most 62 (41 R131). -/
theorem opcode_size_bounds {i : Instr} (hw : i.wellFormed = true) (hp : i.position = .body) :
    1 ≤ i.size ∧ i.size ≤ 5 * pixelCount i ∧ pixelCount i ≤ 62 := by
  cases i with
  | header w h => cases hp
  | endMark => cases hp
  | run n => have := wellFormed_run.1 hw; simp only [Instr.size, pixelCount]; omega
  | _ => simp [Instr.size, pixelCount]

/-- OUT is a header of `w` and `h` and then opcodes that leave the reader at `d`, within the size bounds for the pixels
read: what R37 (f), (g) and 41 R131 say of OUT. -/
structure Covers (w h : U32) (out : List Byte) (d : Reader) : Prop where
  headerFirst : out.take 14 = encode (.header w h)
  low : 14 ≤ out.length
  high : out.length ≤ 14 + 5 * d.pixels.length
  enough : d.pixels.length ≤ 62 * (out.length - 14)
  reads : readOpcodes (out.drop 14) = some d

/-- A header alone represents no pixel. -/
theorem covers_header (w h : U32) : Covers w h (encode (.header w h)) Reader.initial where
  headerFirst := rfl
  low := by rw [encode_length]; exact Nat.le_refl _
  high := by rw [encode_length]; exact Nat.le_refl _
  enough := Nat.zero_le _
  reads := rfl

variable {w h : U32} {out : List Byte} {d : Reader}

/-- Appending a well-formed opcode adds the pixels it denotes. -/
theorem Covers.append (hc : Covers w h out d) {i : Instr} (hw : i.wellFormed = true) (hp : i.position = .body) :
    Covers w h (out ++ encode i) (d.take i) := by
  have hlow := hc.low
  have hhigh := hc.high
  have henough := hc.enough
  obtain ⟨hsize, hper, hcount⟩ := opcode_size_bounds hw hp
  have hlen : (out ++ encode i).length = out.length + i.size := by rw [List.length_append, encode_length]
  have hpix := d.take_pixels_length hp
  refine ⟨?_, by omega, by omega, by omega, ?_⟩
  · rw [List.take_append_of_le_length hlow, hc.headerFirst]
  · rw [List.drop_append_of_le_length hlow]
    exact readOpcodes_append_encode hc.reads hw hp

/-- The output closed by END reads back as the dimensions and the pixels (41 R132). -/
theorem Covers.readStream_endMark (hc : Covers w h out d) (hn : d.pixels.length = w.toNat * h.toNat) :
    readStream (out ++ encode .endMark) = some (w, h, d.pixels) := by
  have hsplit : out ++ encode .endMark = encode (.header w h) ++ (out.drop 14 ++ encode .endMark) := by
    rw [← hc.headerFirst, ← List.append_assoc, List.take_append_drop]
  have hdec : decodeAt .first (out ++ encode .endMark) = .ok (.header w h, out.drop 14 ++ encode .endMark) := by
    rw [hsplit]; exact decodeAt_encode (.header w h) _ rfl
  have hlen : (out.drop 14).length ≤ (out.drop 14 ++ encode .endMark).length := by simp
  rw [readStream, hdec]
  simp only [← hn, Reader.readImage_of_readAll _ _ _ hc.reads _ hlen, Option.map_some]

end Sys2Proof.Machine

/-! ### The states a step leads to, register by register -/
namespace Sys2Proof.Machine

theorem State.started_eq (s : State) :
    s.started = { s with
      startPending := false
      out := encode (.header s.width s.height)
      err := .noError
      npix := s.width.toNat * s.height.toNat
      pos := 0
      prev := Config.prevSeed
      run := 0
      idx := Config.clearTable
      phase := .busy } := by
  simp [State.started, State.startCleared, State.initWorking, State.emit_eq]

theorem State.flushed_eq (s : State) :
    s.flushed = { s with out := s.out ++ (if s.run = 0 then [] else encode (.run s.run)), run := 0 } := by
  unfold State.flushed
  split
  · next h => rw [List.append_nil, ← h]
  · rw [State.emit_eq]

theorem State.encoded_eq (s : State) (cur : Pixel) :
    s.encoded cur = { s with
      out := s.flushed.out ++ encode (select cur s.prev s.idx)
      run := 0
      prev := cur
      idx := writeSlot s.idx (hashOf cur) cur } := by
  simp [State.encoded, State.remember, State.emit_eq, State.flushed_eq]

theorem State.finished_eq (s : State) :
    s.finished = { s with out := s.flushed.out ++ encode .endMark, run := 0, phase := .done } := by
  simp [State.finished, State.emit_eq, State.flushed_eq]

/-- At the cap, the counted run is flushed (42 R141). -/
theorem State.accumulated_of_cap {s : State} (h : s.run = 61) :
    s.accumulated = { s with out := s.out ++ encode (.run 62), run := 0 } := by
  rw [State.accumulated, if_pos (by omega), State.emit_eq]

/-- Below the cap, the pixel is counted only (42 R141). -/
theorem State.accumulated_of_ne_cap {s : State} (h : s.run ≠ 61) :
    s.accumulated = { s with run := s.run + 1 } := by
  rw [State.accumulated, if_neg (by omega)]

@[simp] theorem State.started_phase (s : State) : s.started.phase = .busy := rfl
@[simp] theorem State.started_err (s : State) : s.started.err = .noError := by simp [State.started_eq]
@[simp] theorem State.started_input (s : State) : s.started.input = s.input := by simp [State.started_eq]
@[simp] theorem State.encoded_phase (s : State) (cur : Pixel) : (s.encoded cur).phase = s.phase := by
  simp [State.encoded_eq]
@[simp] theorem State.encoded_err (s : State) (cur : Pixel) : (s.encoded cur).err = s.err := by
  simp [State.encoded_eq]
@[simp] theorem State.encoded_input (s : State) (cur : Pixel) : (s.encoded cur).input = s.input := by
  simp [State.encoded_eq]
@[simp] theorem State.finished_phase (s : State) : s.finished.phase = .done := rfl
@[simp] theorem State.finished_err (s : State) : s.finished.err = s.err := by simp [State.finished_eq]
@[simp] theorem State.finished_input (s : State) : s.finished.input = s.input := by simp [State.finished_eq]
@[simp] theorem State.accumulated_phase (s : State) : s.accumulated.phase = s.phase := by
  unfold State.accumulated; split <;> simp
@[simp] theorem State.accumulated_err (s : State) : s.accumulated.err = s.err := by
  unfold State.accumulated; split <;> simp
@[simp] theorem State.accumulated_input (s : State) : s.accumulated.input = s.input := by
  unfold State.accumulated; split <;> simp

end Sys2Proof.Machine

/-! ### The invariant of an encode, in two parts: the working state and OUT -/
namespace Sys2Proof.Machine

/-- The part of `State.EncodeInv` that does not speak of OUT (10_state R37 (a) to (e)). -/
structure State.WorkingInv (s : State) : Prop where
  runBound : s.run ≤ 61
  posBound : s.pos ≤ s.npix
  lenIs : 4 * s.npix = s.len
  npixIs : s.npix = s.width.toNat * s.height.toNat
  prevIs : s.prev = if s.pos = 0 then Config.prevSeed else s.pixelAt (s.pos - 1)
  runWithin : s.run ≤ s.pos
  runPixels : ∀ i, s.pos - s.run ≤ i → i < s.pos → s.pixelAt i = s.prev
  slotsHashed : ∀ k, s.slot k = Config.idxSeed ∨ hashOf (s.slot k) = k
  prevStored : s.slot (hashOf s.prev) = s.prev ∨ (s.prev = Config.prevSeed ∧ s.idx = Config.clearTable)

/-- OUT represents the first `n` pixels of the image, and its reader agrees with the encoder (10_state R37 (f), (g)). -/
def State.Represents (s : State) (n : Nat) : Prop := Covers s.width s.height s.out ⟨s.prev, s.idx, s.image n⟩

theorem State.encodeInv_iff {s : State} :
    s.EncodeInv ↔ s.WorkingInv ∧ s.Represents (s.pos - s.run) := by
  constructor
  · intro h
    refine ⟨⟨h.runBound, h.posBound, h.lenIs, h.npixIs, h.prevIs, h.runWithin, h.runPixels, h.slotsHashed,
      h.prevStored⟩, h.headerFirst, h.outLow, ?_, ?_, h.reads⟩
    · rw [State.image_length]; exact h.outHigh
    · rw [State.image_length]; exact h.outEnough
  · rintro ⟨hw, hfirst, hlow, hhigh, henough, hreads⟩
    rw [State.image_length] at hhigh henough
    exact ⟨hw.runBound, hw.posBound, hw.lenIs, hw.npixIs, hw.prevIs, hw.runWithin, hw.runPixels, hw.slotsHashed,
      hw.prevStored, hfirst, hlow, hhigh, henough, hreads⟩

/-! ### OUT after a run's byte and after a pixel's opcode -/

/-- A RUN of 1 to 62 appended to OUT represents as many more pixels, when all of them equal PREV (42 R142). -/
theorem State.Represents.append_run {s : State} {n k : Nat} (h : s.Represents n) (h1 : 1 ≤ k) (h62 : k ≤ 62)
    (hpix : ∀ i, n ≤ i → i < n + k → s.pixelAt i = s.prev) :
    Covers s.width s.height (s.out ++ encode (.run k)) ⟨s.prev, s.idx, s.image (n + k)⟩ := by
  rw [s.image_add_replicate n s.prev k hpix]
  exact Covers.append h (wellFormed_run.2 ⟨h1, h62⟩) rfl

/-- After the pending run is flushed, OUT represents every pixel before POS (42 R143). -/
theorem State.EncodeInv.covers_flushed {s : State} (h : s.EncodeInv) :
    Covers s.width s.height s.flushed.out ⟨s.prev, s.idx, s.image s.pos⟩ := by
  obtain ⟨hw, ho⟩ := State.encodeInv_iff.1 h
  have hrun := hw.runBound
  have hpos : s.pos - s.run + s.run = s.pos := Nat.sub_add_cancel hw.runWithin
  rw [State.flushed_out]
  split
  · next h0 => rw [List.append_nil]; rwa [h0] at ho
  · next h0 =>
    have := ho.append_run (by omega : 1 ≤ s.run) (by omega) fun i h1 h2 => hw.runPixels i h1 (hpos ▸ h2)
    rwa [hpos] at this

/-- After a pixel that differs from PREV is encoded, OUT represents it too (41 R120, R123). -/
theorem State.EncodeInv.covers_encoded {s : State} {cur : Pixel} (h : s.EncodeInv) (hat : s.AtPixel cur)
    (hne : cur ≠ s.prev) :
    Covers s.width s.height (s.flushed.out ++ encode (select cur s.prev s.idx))
      ⟨cur, writeSlot s.idx (hashOf cur) cur, s.image (s.pos + 1)⟩ := by
  have himage : s.image s.pos ++ [cur] = s.image (s.pos + 1) := by rw [State.image_succ, ← hat.eq_pixelAt]
  have := h.covers_flushed.append (select_wellFormed s.idx hne) (select_position s.idx hne)
  rwa [Reader.take_select s.idx _ hne, Reader.see, himage] at this

/-! ### Every step keeps the invariant of an encode -/

/-- START gives the working state its initial values (40 R112). -/
theorem State.workingInv_started {s : State} (hl : s.LengthOk) : s.started.WorkingInv := by
  rw [State.started_eq]
  exact
    { runBound := Nat.zero_le _
      posBound := Nat.zero_le _
      lenIs := by
        show 4 * (s.width.toNat * s.height.toNat) = s.len
        rw [hl, Nat.mul_assoc]
      npixIs := rfl
      prevIs := rfl
      runWithin := Nat.zero_le _
      runPixels := fun i _ hi => absurd hi (Nat.not_lt_zero i)
      slotsHashed := fun k => .inl (get_clearTable k)
      prevStored := .inr ⟨rfl, rfl⟩ }

/-- START begins an encode with the invariant (40 R112, R113). -/
theorem State.encodeInv_started {s : State} (hl : s.LengthOk) : s.started.EncodeInv := by
  refine State.encodeInv_iff.2 ⟨State.workingInv_started hl, ?_⟩
  rw [State.started_eq]
  exact covers_header _ _

/-- A run pixel extends the pending stretch of pixels equal to PREV (42 R141). -/
theorem State.WorkingInv.run_pixel {s : State} (h : s.WorkingInv) (hat : s.AtPixel s.prev) :
    ∀ i, s.pos - s.run ≤ i → i < s.pos + 1 → s.pixelAt i = s.prev := by
  intro i hlo hhi
  by_cases hi : i = s.pos
  · rw [hi, ← hat.eq_pixelAt]
  · exact h.runPixels i hlo (by omega)

/-- The 62nd run pixel is flushed with its run: no run is pending, and OUT represents it (42 R141). -/
theorem State.EncodeInv.accumulated_of_cap {s : State} (h : s.EncodeInv) (hat : s.AtPixel s.prev)
    (hcap : s.run = 61) : s.accumulated.advance.EncodeInv := by
  obtain ⟨hw, ho⟩ := State.encodeInv_iff.1 h
  have hcount : s.pos - s.run + 62 = s.pos + 1 := by
    have := hw.runWithin
    omega
  have hcovers := ho.append_run (by decide) (Nat.le_refl 62) fun i h1 h2 => hw.run_pixel hat i h1 (hcount ▸ h2)
  rw [hcount] at hcovers
  rw [State.encodeInv_iff, State.accumulated_of_cap hcap]
  refine ⟨?_, hcovers⟩
  exact
    { runBound := Nat.zero_le _
      posBound := hat.1.2
      lenIs := hw.lenIs
      npixIs := hw.npixIs
      prevIs := hat.eq_pixelAt
      runWithin := Nat.zero_le _
      runPixels := fun i h1 h2 => absurd h2 (Nat.not_lt.2 h1)
      slotsHashed := hw.slotsHashed
      prevStored := hw.prevStored }

/-- A run pixel below the cap is pending, and OUT represents what it did before (42 R141). -/
theorem State.EncodeInv.accumulated_of_ne_cap {s : State} (h : s.EncodeInv) (hat : s.AtPixel s.prev)
    (hcap : s.run ≠ 61) : s.accumulated.advance.EncodeInv := by
  obtain ⟨hw, ho⟩ := State.encodeInv_iff.1 h
  have hcount : s.pos - s.run = s.pos + 1 - (s.run + 1) := by omega
  rw [hcount] at ho
  rw [State.encodeInv_iff, State.accumulated_of_ne_cap hcap]
  refine ⟨?_, ho⟩
  exact
    { runBound := Nat.succ_le_of_lt (lt_of_le_of_ne hw.runBound hcap)
      posBound := hat.1.2
      lenIs := hw.lenIs
      npixIs := hw.npixIs
      prevIs := hat.eq_pixelAt
      runWithin := Nat.succ_le_succ hw.runWithin
      runPixels := fun i h1 h2 => hw.run_pixel hat i (hcount ▸ h1) h2
      slotsHashed := hw.slotsHashed
      prevStored := hw.prevStored }

/-- A run pixel, counted or flushed at the cap, keeps the invariant (42 R141). -/
theorem State.EncodeInv.accumulated {s : State} (h : s.EncodeInv) (hat : s.AtPixel s.prev) :
    s.accumulated.advance.EncodeInv := by
  by_cases hcap : s.run = 61
  · exact h.accumulated_of_cap hat hcap
  · exact h.accumulated_of_ne_cap hat hcap

/-- Storing a pixel in its own slot leaves every slot empty or holding a pixel of its hash (43 R153). -/
theorem hashed_writeSlot {t : Table} (h : ∀ k, t.get k = Config.idxSeed ∨ hashOf (t.get k) = k) (cur : Pixel)
    (k : Slot) :
    (writeSlot t (hashOf cur) cur).get k = Config.idxSeed ∨ hashOf ((writeSlot t (hashOf cur) cur).get k) = k := by
  rw [get_writeSlot]
  split
  · next hk => exact .inr hk.symm
  · exact h k

/-- A pixel that differs from PREV keeps the invariant (41 R120, R123). -/
theorem State.EncodeInv.encoded {s : State} {cur : Pixel} (h : s.EncodeInv) (hat : s.AtPixel cur)
    (hne : cur ≠ s.prev) : (s.encoded cur).advance.EncodeInv := by
  rw [State.encodeInv_iff, State.encoded_eq]
  refine ⟨?_, h.covers_encoded hat hne⟩
  exact
    { runBound := Nat.zero_le _
      posBound := hat.1.2
      lenIs := h.lenIs
      npixIs := h.npixIs
      prevIs := hat.eq_pixelAt
      runWithin := Nat.zero_le _
      runPixels := fun i h1 h2 => absurd h2 (Nat.not_lt.2 h1)
      slotsHashed := hashed_writeSlot h.slotsHashed cur
      prevStored := .inl (get_writeSlot_same _ _ _) }

/-- FINISH closes an encode whose every pixel has been read (46 R180, R183, 41 R132). -/
theorem State.EncodeInv.finished {s : State} (h : s.EncodeInv) (hpos : s.pos = s.npix) : s.finished.DoneInv := by
  have hc := h.covers_flushed
  have hlow := hc.low
  have hhigh := hc.high
  have henough := hc.enough
  simp only [State.image_length] at hhigh henough
  have hlen : (s.flushed.out ++ encode .endMark).length = s.flushed.out.length + 8 := List.length_append
  rw [State.finished_eq]
  exact
    { runZero := rfl
      posIs := hpos
      npixIs := h.npixIs
      headerFirst := (List.take_append_of_le_length hlow).trans hc.headerFirst
      endLast := by
        show (s.flushed.out ++ encode .endMark).drop ((s.flushed.out ++ encode .endMark).length - 8) = _
        rw [hlen, Nat.add_sub_cancel, List.drop_left]
      outLow := by
        show 22 ≤ (s.flushed.out ++ encode .endMark).length
        omega
      outHigh := by
        show (s.flushed.out ++ encode .endMark).length ≤ 22 + 5 * s.npix
        omega
      outEnough := by
        show s.npix ≤ 62 * ((s.flushed.out ++ encode .endMark).length - 22)
        omega
      reads := by
        rw [hpos] at hc
        exact hc.readStream_endMark ((s.image_length _).trans h.npixIs) }

end Sys2Proof.Machine

/-! ### The invariant of the machine, phase by phase -/
namespace Sys2Proof.Machine

theorem State.inv_busy {s : State} (hp : s.phase = .busy) :
    s.Inv ↔ Memory.wf s.input = true ∧ s.err = .noError ∧ s.EncodeInv := by
  rw [State.Inv, hp]

theorem State.inv_done {s : State} (hp : s.phase = .done) :
    s.Inv ↔ Memory.wf s.input = true ∧ s.err = .noError ∧ s.DoneInv := by
  rw [State.Inv, hp]

theorem State.inv_fault {s : State} (hp : s.phase = .fault) :
    s.Inv ↔ Memory.wf s.input = true ∧ s.out = [] ∧ s.err = .malformedInput := by
  rw [State.Inv, hp]

/-- A START whose check passes enters the invariant (40 R112). -/
theorem State.inv_started {s : State} (hm : Memory.wf s.input = true) (hl : s.LengthOk) : s.started.Inv :=
  (State.inv_busy s.started_phase).2 ⟨by simpa using hm, s.started_err, State.encodeInv_started hl⟩

/-- A START whose check fails enters the invariant (60 R196). -/
theorem State.inv_takeMalformedInput {s : State} (hm : Memory.wf s.input = true) :
    s.startCleared.takeMalformedInput.Inv :=
  (State.inv_fault rfl).2 ⟨hm, rfl, rfl⟩

end Sys2Proof.Machine

/-! ### When a START is taken, and where a pixel opcode stops -/
namespace Sys2Proof.Machine

/-- A START that waits is taken by the next step (10_state R32). -/
theorem step_starting {s : State} (h : s.Starting) :
    step s = .next (if s.LengthOk then s.started else s.startCleared.takeMalformedInput) := by
  rw [step_rest h.1, h.2, if_pos rfl, start_eq]

/-- In BUSY no START is taken (10_state R32). -/
theorem State.not_starting_of_busy {s : State} (hp : s.phase = .busy) : ¬ s.Starting := fun h => h.1 hp

/-- A pixel opcode is refused outside a pixel step (10_state R32; log entry 9). -/
theorem State.asOutcome_of_not_enabled {s : State} (h : ¬ s.PixelEnabled) (i : Instr) (p : Pixel → Bool) :
    s.asOutcome i p = .refused .notEnabled := by
  rw [State.asOutcome, if_neg h]

/-- A pixel opcode is refused while a run is pending and for a pixel of which it is not the outcome (log entry 9). -/
theorem State.asOutcome_of_not_outcome {s : State} {cur : Pixel} (hat : s.AtPixel cur) {i : Instr} {p : Pixel → Bool}
    (h : ¬ (s.run = 0 ∧ p cur = true)) : s.asOutcome i p = .refused .notOutcome := by
  rw [State.asOutcome, if_pos hat.1, hat.2]
  exact if_neg h

/-- A pixel opcode runs by the shared rule, for a pixel that differs from PREV and for which the chain chooses it
(41 R122). -/
theorem exec_pixelOpcode {i : Instr} (s : State) (hp : i.position = .body) (hr : ∀ n, i ≠ .run n) :
    ∃ p : Pixel → Bool, exec i s = s.asOutcome i p ∧
      ∀ cur, p cur = true → cur ≠ s.prev ∧ i = select cur s.prev s.idx := by
  cases i with
  | header w h => cases hp
  | endMark => cases hp
  | run n => exact absurd rfl (hr n)
  | index k =>
    refine ⟨_, rfl, fun cur h => ?_⟩
    obtain ⟨⟨hne, hhit⟩, rfl⟩ := of_decide_eq_true h
    exact ⟨hne, by rw [select, if_pos hhit]⟩
  | diff dr dg db =>
    refine ⟨_, rfl, fun cur h => ?_⟩
    obtain ⟨⟨⟨hne, hmiss, ha⟩, hsmall⟩, hd⟩ := of_decide_eq_true h
    exact ⟨hne, by rw [select, if_neg hmiss, if_pos ha, if_pos hsmall, hd]⟩
  | luma dg dgr dgb =>
    refine ⟨_, rfl, fun cur h => ?_⟩
    obtain ⟨⟨⟨hne, hmiss, ha⟩, hbig, hluma⟩, rfl, rfl, rfl⟩ := of_decide_eq_true h
    exact ⟨hne, by rw [select, if_neg hmiss, if_pos ha, if_neg hbig, if_pos hluma]⟩
  | rgb r g b =>
    refine ⟨_, rfl, fun cur h => ?_⟩
    obtain ⟨⟨⟨hne, hmiss, ha⟩, hbig, hfar⟩, rfl, rfl, rfl⟩ := of_decide_eq_true h
    exact ⟨hne, by rw [select, if_neg hmiss, if_pos ha, if_neg hbig, if_neg hfar]⟩
  | rgba r g b a =>
    refine ⟨_, rfl, fun cur h => ?_⟩
    obtain ⟨⟨hne, hmiss, ha⟩, rfl⟩ := of_decide_eq_true h
    exact ⟨hne, by rw [select, if_neg hmiss, if_neg ha]⟩

end Sys2Proof.Machine

/-! ### The obligations of 10_state -/
namespace Sys2Proof.Machine

/-- Settles O49, by the six things a step can do. -/
theorem stepKeepsTheInvariant : Obligations.StepKeepsTheInvariant := by
  intro s t hi h
  have hm : Memory.wf s.input = true := hi.1
  obtain ⟨-, -, rfl⟩ | ⟨-, -, hl, rfl⟩ | ⟨-, -, -, rfl⟩ | ⟨hat, rfl⟩ | ⟨cur, hat, hne, -, rfl⟩ |
    ⟨hp, hpos, -, rfl⟩ := step_cases h
  · exact hi
  · exact State.inv_started hm hl
  · exact State.inv_takeMalformedInput hm
  · have hp : s.phase = .busy := hat.1.1
    obtain ⟨-, herr, henc⟩ := (State.inv_busy hp).1 hi
    exact (State.inv_busy (by simpa using hp)).2 ⟨by simpa using hm, by simpa using herr, henc.accumulated hat⟩
  · have hp : s.phase = .busy := hat.1.1
    obtain ⟨-, herr, henc⟩ := (State.inv_busy hp).1 hi
    exact (State.inv_busy (by simpa using hp)).2 ⟨by simpa using hm, by simpa using herr, henc.encoded hat hne⟩
  · obtain ⟨-, herr, henc⟩ := (State.inv_busy hp).1 hi
    exact (State.inv_done s.finished_phase).2 ⟨by simpa using hm, by simpa using herr, henc.finished hpos⟩

/-- Settles O50: either end of a START enters the invariant. -/
theorem startEstablishesTheInvariant : Obligations.StartEstablishesTheInvariant := by
  intro s t hm hs h
  rw [step_starting hs] at h
  split at h <;> cases h
  · next hl => exact State.inv_started hm hl
  · exact State.inv_takeMalformedInput hm

/-- Settles O37, by the six things a step can do. -/
theorem phaseFollowsItsTransitions : Obligations.PhaseFollowsItsTransitions := by
  intro s t h
  obtain ⟨hp, hs, rfl⟩ | ⟨hp, hs, hl, rfl⟩ | ⟨hp, hs, hl, rfl⟩ | ⟨hat, rfl⟩ |
    ⟨cur, hat, -, -, rfl⟩ | ⟨hp, hpos, -, rfl⟩ := step_cases h
  · rw [if_neg hp, hs, if_neg Bool.false_ne_true]
  · rw [if_neg hp, if_pos hs, if_pos hl, State.started_phase]
  · rw [if_neg hp, if_pos hs, if_neg hl, State.takeMalformedInput_phase]
  · obtain ⟨hp, hlt⟩ := hat.1
    rw [if_pos hp, if_neg hlt.ne, State.advance_phase, State.accumulated_phase, hp]
  · obtain ⟨hp, hlt⟩ := hat.1
    rw [if_pos hp, if_neg hlt.ne, State.advance_phase, State.encoded_phase, hp]
  · rw [if_pos hp, if_pos hpos, State.finished_phase]

/-- Settles O38, by the six things a step can do. -/
theorem errorIsWrittenByStartOnly : Obligations.ErrorIsWrittenByStartOnly := by
  intro s t h
  obtain ⟨hp, hs, rfl⟩ | ⟨hp, hs, hl, rfl⟩ | ⟨hp, hs, hl, rfl⟩ | ⟨hat, rfl⟩ |
    ⟨cur, hat, -, -, rfl⟩ | ⟨hp, -, -, rfl⟩ := step_cases h
  · rw [if_neg (by simp [State.Starting, hs])]
  · rw [if_pos ⟨hp, hs⟩, if_pos hl, State.started_err]
  · rw [if_pos ⟨hp, hs⟩, if_neg hl, State.takeMalformedInput_err]
  · rw [if_neg (State.not_starting_of_busy hat.1.1), State.advance_err, State.accumulated_err]
  · rw [if_neg (State.not_starting_of_busy hat.1.1), State.advance_err, State.encoded_err]
  · rw [if_neg (State.not_starting_of_busy hp), State.finished_err]

/-- Settles O43: what a START leaves is a function of IN, LEN, WIDTH and HEIGHT. -/
theorem startForgetsEarlierEncodes : Obligations.StartForgetsEarlierEncodes := by
  intro s u hs hu hw hh hlen hin
  have hok : s.LengthOk ↔ u.LengthOk := by rw [State.LengthOk, State.LengthOk, hw, hh, hlen]
  refine ⟨_, _, step_starting hs, step_starting hu, ?_⟩
  by_cases hl : s.LengthOk
  · rw [if_pos hl, if_pos (hok.1 hl), State.started_eq, State.started_eq]
    simp [hw, hh, hlen, hin]
  · rw [if_neg hl, if_neg (hok.not.1 hl)]
    exact ⟨rfl, rfl, rfl, fun h => absurd h hl⟩

/-- Settles O3: with no START waiting, a step at rest answers the state itself. -/
theorem restChangesNothing : Obligations.RestChangesNothing := by
  intro s hp hs
  rw [step_rest hp, hs, if_neg Bool.false_ne_true]

/-- Settles O15, by the rule that the five pixel opcodes share. -/
theorem pixelOpcodeStopsElsewhere : Obligations.PixelOpcodeStopsElsewhere := by
  intro i s hp hr
  obtain ⟨p, hexec, hchosen⟩ := exec_pixelOpcode s hp hr
  rw [hexec]
  refine ⟨fun h => State.asOutcome_of_not_enabled h i p, fun h hf => State.asOutcome_eq_fault.2 ⟨h, hf⟩, ?_⟩
  intro cur hat hstop
  refine State.asOutcome_of_not_outcome hat fun ⟨h0, hcur⟩ => ?_
  obtain ⟨hne, hsel⟩ := hchosen cur hcur
  obtain hrun | heq | hother := hstop
  · exact hrun h0
  · exact hne heq
  · exact hother hsel

end Sys2Proof.Machine

/-! ### The registers that a step leaves, and what it appends to OUT -/
namespace Sys2Proof.Machine

@[simp] theorem State.started_width (s : State) : s.started.width = s.width := by simp [State.started_eq]
@[simp] theorem State.started_height (s : State) : s.started.height = s.height := by simp [State.started_eq]
@[simp] theorem State.started_len (s : State) : s.started.len = s.len := by simp [State.started_eq]
@[simp] theorem State.encoded_width (s : State) (cur : Pixel) : (s.encoded cur).width = s.width := by
  simp [State.encoded_eq]
@[simp] theorem State.encoded_height (s : State) (cur : Pixel) : (s.encoded cur).height = s.height := by
  simp [State.encoded_eq]
@[simp] theorem State.encoded_len (s : State) (cur : Pixel) : (s.encoded cur).len = s.len := by
  simp [State.encoded_eq]
@[simp] theorem State.finished_width (s : State) : s.finished.width = s.width := by simp [State.finished_eq]
@[simp] theorem State.finished_height (s : State) : s.finished.height = s.height := by simp [State.finished_eq]
@[simp] theorem State.finished_len (s : State) : s.finished.len = s.len := by simp [State.finished_eq]
@[simp] theorem State.accumulated_width (s : State) : s.accumulated.width = s.width := by
  unfold State.accumulated; split <;> simp
@[simp] theorem State.accumulated_height (s : State) : s.accumulated.height = s.height := by
  unfold State.accumulated; split <;> simp
@[simp] theorem State.accumulated_len (s : State) : s.accumulated.len = s.len := by
  unfold State.accumulated; split <;> simp

/-- What an encode reads and never writes: IN, LEN, WIDTH and HEIGHT (20_memory R53, 10_state R25, R26). -/
structure State.SameInput (s t : State) : Prop where
  input : t.input = s.input
  len : t.len = s.len
  width : t.width = s.width
  height : t.height = s.height

/-- A step writes none of IN, LEN, WIDTH and HEIGHT. -/
theorem step_sameInput {s t : State} (h : step s = .next t) : s.SameInput t := by
  obtain ⟨-, -, rfl⟩ | ⟨-, -, -, rfl⟩ | ⟨-, -, -, rfl⟩ | ⟨-, rfl⟩ | ⟨cur, -, -, -, rfl⟩ | ⟨-, -, -, rfl⟩ :=
    step_cases h
  · exact ⟨rfl, rfl, rfl, rfl⟩
  · exact ⟨s.started_input, s.started_len, s.started_width, s.started_height⟩
  · exact ⟨rfl, rfl, rfl, rfl⟩
  · exact ⟨s.accumulated_input, s.accumulated_len, s.accumulated_width, s.accumulated_height⟩
  · exact ⟨s.encoded_input cur, s.encoded_len cur, s.encoded_width cur, s.encoded_height cur⟩
  · exact ⟨s.finished_input, s.finished_len, s.finished_width, s.finished_height⟩

/-- `t` has the OUT of `s` with between `lo` and `hi` bytes appended (20_memory R56). -/
def State.Appends (s t : State) (lo hi : Nat) : Prop :=
  ∃ bs, t.out = s.out ++ bs ∧ lo ≤ bs.length ∧ bs.length ≤ hi

section
variable {s t : State} {lo hi : Nat}

/-- A byte that was there before the bytes appended is there after. -/
theorem State.Appends.outByte_eq (h : s.Appends t lo hi) {a : Nat} (ha : a < s.outLen) :
    t.outByte a = s.outByte a := by
  obtain ⟨bs, hout, -, -⟩ := h
  rw [State.outByte, hout, List.getElem?_append_left ha, State.outByte]

theorem State.Appends.outLen_bounds (h : s.Appends t lo hi) : s.outLen + lo ≤ t.outLen ∧ t.outLen ≤ s.outLen + hi := by
  obtain ⟨bs, hout, hlo, hhi⟩ := h
  have hlen : t.outLen = s.outLen + bs.length := by rw [State.outLen, hout, List.length_append, State.outLen]
  omega

theorem State.Appends.weaken (h : s.Appends t lo hi) {lo' hi' : Nat} (hlo : lo' ≤ lo) (hhi : hi ≤ hi') :
    s.Appends t lo' hi' := by
  obtain ⟨bs, hout, h1, h2⟩ := h
  exact ⟨bs, hout, hlo.trans h1, h2.trans hhi⟩

/-- Bytes appended after others. -/
theorem State.Appends.append (h : s.Appends t lo hi) {u : State} {bs : List Byte} (hout : u.out = t.out ++ bs) :
    s.Appends u (lo + bs.length) (hi + bs.length) := by
  obtain ⟨cs, ht, h1, h2⟩ := h
  refine ⟨cs ++ bs, by rw [hout, ht, List.append_assoc], ?_, ?_⟩ <;> rw [List.length_append] <;> omega

end

/-- FlushIfPending appends one RUN or nothing (42 R143). -/
theorem State.appends_flushed (s : State) : s.Appends s.flushed 0 1 := by
  refine ⟨_, s.flushed_out, Nat.zero_le _, ?_⟩
  split
  · exact Nat.zero_le 1
  · exact (encode_length _).le

/-- A run pixel appends one RUN, at the cap, or nothing (42 R141). -/
theorem State.appends_accumulated (s : State) : s.Appends s.accumulated 0 1 := by
  by_cases hcap : s.run = 61
  · exact ⟨encode (.run 62), by rw [State.accumulated_of_cap hcap], Nat.zero_le _, (encode_length _).le⟩
  · exact ⟨[], by rw [State.accumulated_of_ne_cap hcap, List.append_nil], Nat.zero_le _, Nat.zero_le _⟩

/-- Any other pixel appends the pending run, if any, and an opcode of at most five bytes (41 R131). -/
theorem State.appends_encoded (s : State) {cur : Pixel} (hne : cur ≠ s.prev) : s.Appends (s.encoded cur) 1 6 := by
  obtain ⟨hlo, hhi⟩ := select_length s.idx hne
  exact (s.appends_flushed.append (by rw [State.encoded_eq])).weaken (by omega) (by omega)

/-- FINISH appends the pending run, if any, and the 8 bytes of END (46 R180). -/
theorem State.appends_finished (s : State) : s.Appends s.finished 8 9 :=
  s.appends_flushed.append (bs := encode .endMark) (by rw [State.finished_eq])

/-- A pixel step appends at most 6 bytes to OUT (41 R131). -/
theorem step_appends_of_pixelEnabled {s t : State} (he : s.PixelEnabled) (h : step s = .next t) :
    s.Appends t 0 6 := by
  obtain ⟨hp, -⟩ | ⟨hp, -⟩ | ⟨hp, -⟩ | ⟨-, rfl⟩ | ⟨cur, -, hne, -, rfl⟩ | ⟨-, hpos, -⟩ := step_cases h
  · exact absurd he.1 hp
  · exact absurd he.1 hp
  · exact absurd he.1 hp
  · exact s.appends_accumulated.weaken (Nat.le_refl 0) (by decide)
  · exact (s.appends_encoded hne).weaken (by decide) (Nat.le_refl 6)
  · exact absurd hpos he.2.ne

/-- In BUSY with every pixel read, the step is FINISH (10_state R32). -/
theorem step_eq_finish {s : State} (hp : s.phase = .busy) (hpos : s.pos = s.npix) : step s = finish s := by
  rw [step_busy hp, if_neg hpos.not_lt, if_pos hpos]

/-- In BUSY with POS > NPIX no step is enabled (10_state R32; log entry 9). -/
theorem step_of_npix_lt {s : State} (hp : s.phase = .busy) (hpos : s.npix < s.pos) :
    step s = .refused .notEnabled := by
  rw [step_busy hp, if_neg (by omega), if_neg (by omega)]

end Sys2Proof.Machine

/-! ### Where a step faults -/
namespace Sys2Proof.Machine

/-- The fetch answers nothing exactly for a pixel that reaches beyond LEN (20_memory R52). -/
theorem State.fetchPixel_eq_none {s : State} {i : Nat} : s.fetchPixel i = none ↔ s.len < 4 * i + 4 := by
  rw [State.fetchPixel_eq]
  split
  · next h => simp [h]
  · next h => simpa using h

/-- The fetch answers the image's pixel, where it answers one (41 R121). -/
theorem State.fetchPixel_of_le {s : State} {i : Nat} (h : 4 * i + 4 ≤ s.len) : s.fetchPixel i = some (s.pixelAt i) := by
  rw [State.fetchPixel_eq, if_pos h, State.pixelAt]

/-- A pixel that has been fetched is encoded without a fault: the flush has none, and the selected opcode runs after it
(41 R120). -/
theorem encodePixel_ne_fault {s : State} {cur : Pixel} (hat : s.AtPixel cur) (hne : cur ≠ s.prev) (r : Fault) :
    encodePixel cur s ≠ .fault r := by
  by_cases hr : s.run ≤ 62
  · rw [encodePixel_eq hat hne hr]; nofun
  · intro h
    obtain hflush | ⟨u, hflush, -⟩ := andThen_eq_fault.1 h
    · exact flushIfPending_ne_fault s r hflush
    · exact hr (flushIfPending_eq_next.1 hflush).1

/-- A pixel step faults only where its fetch reaches beyond LEN (log entry 9). -/
theorem fetchPixel_eq_none_of_pixelStep_fault {s : State} (he : s.PixelEnabled) {r : Fault}
    (h : pixelStep s = .fault r) : s.fetchPixel s.pos = none := by
  cases hf : s.fetchPixel s.pos with
  | none => rfl
  | some cur =>
    have hat : s.AtPixel cur := ⟨he, hf⟩
    by_cases hc : cur = s.prev
    · subst hc
      rw [pixelStep_run hat] at h
      cases h
    · rw [pixelStep, hf] at h
      simp only [if_neg hc, andThen_eq_fault, reduceCtorEq, and_false, exists_false, or_false] at h
      exact absurd h (encodePixel_ne_fault hat hc r)

/-- FINISH never faults: it fetches nothing (46 R180). -/
theorem finish_ne_fault (s : State) (r : Fault) : finish s ≠ .fault r := by
  intro h
  obtain hflush | ⟨u, -, hend⟩ := andThen_eq_fault.1 h
  · exact flushIfPending_ne_fault s r hflush
  · rw [exec_endMark, andThen_next] at hend
    cases hend

/-- At rest a step never faults: it is START, which always completes, or nothing (10_state R32). -/
theorem step_rest_ne_fault {s : State} (hp : s.phase ≠ .busy) (r : Fault) : step s ≠ .fault r := by
  rw [step_rest hp, start_eq]
  split <;> nofun

end Sys2Proof.Machine

/-! ### The host: what it reads, and an image it places in IN -/
namespace Sys2Proof.Machine

/-- The host reads nothing of OUT where PHASE is not DONE (20_memory R57). -/
theorem hostReadOut_eq_none {s : State} (h : s.phase ≠ .done) : hostReadOut s = none := if_neg h

/-- The host reads no ERR where PHASE is not FAULT (70 R226). -/
theorem hostReadErr_eq_none {s : State} (h : s.phase ≠ .fault) : hostReadErr s = none := if_neg h

/-- An entry of a list made of pieces of one length. -/
theorem getElem?_flatMap_of_length_eq {α β : Type} {f : α → List β} {n : Nat} (hf : ∀ x, (f x).length = n)
    {k : Nat} (hk : k < n) : ∀ (l : List α) (i : Nat), (l.flatMap f)[n * i + k]? = l[i]?.bind fun x => (f x)[k]?
  | [], _ => rfl
  | x :: l, 0 => by
      rw [List.flatMap_cons, Nat.mul_zero, Nat.zero_add, List.getElem?_append_left (by rw [hf]; exact hk)]
      rfl
  | x :: l, i + 1 => by
      have hsub : n * (i + 1) + k - n = n * i + k := by rw [Nat.mul_succ]; omega
      rw [List.flatMap_cons, List.getElem?_append_right (by rw [hf, Nat.mul_succ]; omega), hf, hsub,
        getElem?_flatMap_of_length_eq hf hk l i, List.getElem?_cons_succ]

/-- A byte written from address 0 reads back at its place. -/
theorem Memory.read_writeAll_zero {m : List Host.Cell} (hm : Memory.wf m = true) {bs : List Byte} {x : Nat} {b : Byte}
    (h : bs[x]? = some b) : Memory.read (Memory.writeAll m 0 bs) x = b := by
  obtain ⟨hx, hb⟩ := List.getElem?_eq_some_iff.1 h
  rw [Memory.read_writeAll bs m 0 x hm, dif_pos ⟨Nat.zero_le x, by omega⟩]
  exact hb

/-- The bytes of a list of pixels as the host places them: four each, in the order r, g, b, a (20_memory R51). -/
abbrev pixelBytes (pixels : List Pixel) : List Byte := pixels.flatMap fun p => [p.r, p.g, p.b, p.a]

theorem length_pixelBytes (pixels : List Pixel) : (pixelBytes pixels).length = 4 * pixels.length := by
  simp [pixelBytes, List.length_flatMap, Nat.mul_comm]

/-- Byte 4i + k is channel k of pixel i (20_memory R51). -/
theorem getElem?_pixelBytes {pixels : List Pixel} {i k : Nat} (hi : i < pixels.length) (hk : k < 4) :
    (pixelBytes pixels)[4 * i + k]? = [pixels[i].r, pixels[i].g, pixels[i].b, pixels[i].a][k]? := by
  have h := getElem?_flatMap_of_length_eq (n := 4) (f := fun p : Pixel => [p.r, p.g, p.b, p.a]) (fun _ => rfl) hk
    pixels i
  rwa [List.getElem?_eq_getElem hi, Option.bind_some] at h

/-- `s` with the bytes of an image placed in IN from address 0 and LEN their length (70 R223 (1) and (2)). -/
def State.loaded (s : State) (pixels : List Pixel) : State :=
  { s with input := Memory.writeAll s.input 0 (pixelBytes pixels), len := (pixelBytes pixels).length }

section
variable {s : State} {pixels : List Pixel}

/-- A load that the host has leads to the loaded state. -/
theorem eq_loaded_of_hostLoad {t : State} (h : hostLoad (pixelBytes pixels) s = .next t) : t = s.loaded pixels :=
  (State.hostMove_eq_next.1 h).2

theorem State.loaded_len (s : State) (pixels : List Pixel) : (s.loaded pixels).len = 4 * pixels.length :=
  length_pixelBytes pixels

/-- Pixel `i` of the image in IN is pixel `i` of the list the host has placed (20_memory R51). -/
theorem State.pixelAt_loaded (hm : Memory.wf s.input = true) {i : Nat} (hi : i < pixels.length) :
    (s.loaded pixels).pixelAt i = pixels[i] := by
  simp only [State.pixelAt, State.loaded]
  rw [Memory.read_writeAll_zero hm (x := 4 * i) (getElem?_pixelBytes hi (k := 0) (by decide)),
    Memory.read_writeAll_zero hm (getElem?_pixelBytes hi (k := 1) (by decide)),
    Memory.read_writeAll_zero hm (getElem?_pixelBytes hi (k := 2) (by decide)),
    Memory.read_writeAll_zero hm (getElem?_pixelBytes hi (k := 3) (by decide))]

/-- The fetch of a pixel of the loaded image answers it, and of any other pixel nothing (41 R121, 20_memory R52). -/
theorem State.fetchPixel_loaded (hm : Memory.wf s.input = true) (i : Nat) :
    (s.loaded pixels).fetchPixel i = pixels[i]? := by
  have hlen := s.loaded_len pixels
  by_cases hi : i < pixels.length
  · rw [State.fetchPixel_of_le (by omega), State.pixelAt_loaded hm hi, List.getElem?_eq_getElem hi]
  · rw [State.fetchPixel_eq_none.2 (by omega), List.getElem?_eq_none (Nat.not_lt.1 hi)]

/-- The image in IN is the list the host has placed. -/
theorem State.image_loaded (hm : Memory.wf s.input = true) : (s.loaded pixels).image pixels.length = pixels := by
  refine List.ext_getElem (State.image_length _ _) fun i _ hi => ?_
  rw [← State.pixelAt_loaded hm hi]
  simp [State.image]

end

end Sys2Proof.Machine

/-! ### The obligations of 20_memory -/
namespace Sys2Proof.Machine

/-- Settles O39: a step leaves the list of IN itself, so every byte of it. -/
theorem inputIsNeverWritten : Obligations.InputIsNeverWritten := by
  intro s t h
  obtain ⟨hin, hlen, hw, hh⟩ := step_sameInput h
  exact ⟨fun a => by rw [hin], hlen, hw, hh⟩

/-- Settles O40, by what a pixel step and FINISH append. -/
theorem outputOnlyGrows : Obligations.OutputOnlyGrows := by
  intro s t hp h
  obtain hlt | heq | hgt := Nat.lt_trichotomy s.pos s.npix
  · have happ := step_appends_of_pixelEnabled ⟨hp, hlt⟩ h
    exact ⟨fun a => happ.outByte_eq, fun _ => happ.outLen_bounds, fun e => absurd e hlt.ne⟩
  · rw [step_eq_finish hp heq] at h
    obtain ⟨-, rfl⟩ := finish_eq_next.1 h
    have happ := s.appends_finished
    exact ⟨fun a => happ.outByte_eq, fun e => absurd heq e.ne, fun _ => happ.outLen_bounds⟩
  · rw [step_of_npix_lt hp hgt] at h
    cases h

/-- Settles O41: of the steps, the pixel step alone fetches, and it faults where its fetch does. -/
theorem onlyAFetchBeyondLenFaults : Obligations.OnlyAFetchBeyondLenFaults := by
  intro s r h
  by_cases hp : s.phase = .busy
  · rw [step_busy hp] at h
    split at h
    · next hlt => exact ⟨⟨hp, hlt⟩, State.fetchPixel_eq_none.1 (fetchPixel_eq_none_of_pixelStep_fault ⟨hp, hlt⟩ h)⟩
    split at h
    · exact absurd h (finish_ne_fault s r)
    · cases h
  · exact absurd h (step_rest_ne_fault hp r)

/-- Settles O47: the loaded state holds the image, four bytes for each pixel. -/
theorem loadedPixelsAreFetched : Obligations.LoadedPixelsAreFetched := by
  intro s t pixels hm h
  obtain rfl := eq_loaded_of_hostLoad h
  exact ⟨Memory.wf_writeAll _ _ 0 hm, State.fetchPixel_loaded hm, State.image_loaded hm⟩

/-- Settles O46, by the read after a write. -/
theorem hostWriteReachesOneByte : Obligations.HostWriteReachesOneByte := by
  intro s t a b hm h
  obtain ⟨-, rfl⟩ := State.hostMove_eq_next.1 h
  exact ⟨Memory.wf_write hm a b, Memory.read_write hm a b⟩

/-- Settles O48: PHASE alone decides what the host reads. -/
theorem outputIsVisibleAtDoneOnly : Obligations.OutputIsVisibleAtDoneOnly := by
  intro s
  refine ⟨fun hp => ?_, fun hp => ?_, fun hp => hostReadErr_eq_some.2 ⟨hp, rfl⟩, hostReadErr_eq_none⟩
  · have hout : hostReadOut s = some s.out := hostReadOut_eq_some.2 ⟨hp, rfl⟩
    exact ⟨hout, by rw [hostReadOutLen_eq, hout, Option.map_some]⟩
  · have hout := hostReadOut_eq_none hp
    exact ⟨hout, by rw [hostReadOutLen_eq, hout, Option.map_none]⟩

end Sys2Proof.Machine

/-! ### The frames and the first byte of an opcode -/
namespace Sys2Proof

/-- The bytes of a well-formed form, with nothing after them, are read as that form. -/
theorem decodeAt_eq_of_encode {i : Instr} {bs : List Byte} (hw : i.wellFormed = true) (hbs : encode i = bs) :
    decodeAt i.position bs = .ok (i, []) := by
  rw [← hbs, ← List.append_nil (encode i)]
  exact decodeAt_encode i [] hw

/-- What decodes as HEADER is the encoding of a HEADER (30_encoding R81). -/
theorem eq_encode_of_decodeHeader {bs rest : List Byte} {i : Instr} (h : decodeHeader bs = .ok (i, rest)) :
    ∃ width height, i = .header width height ∧ bs = encode (.header width height) ++ rest := by
  unfold decodeHeader at h
  split at h
  · split at h
    · next hframe =>
      obtain ⟨hmagic, rfl, rfl⟩ := hframe
      cases h
      refine ⟨_, _, rfl, ?_⟩
      rw [encode, bytesBE_wordBE, bytesBE_wordBE, ← hmagic]
      rfl
    · cases h
  · cases h

/-- What decodes as END is the END marker (30_encoding R82). -/
theorem eq_encode_of_decodeEnd {bs rest : List Byte} {i : Instr} (h : decodeEnd bs = .ok (i, rest)) :
    i = .endMark ∧ bs = encode .endMark ++ rest := by
  unfold decodeEnd at h
  split at h
  · split at h
    · next hmarker =>
      cases h
      rw [encode, ← hmarker]
      exact ⟨rfl, rfl⟩
    · cases h
  · cases h

/-- The 2-bit tag is the quarter of the byte range in which the first byte lies (30_encoding R84). -/
theorem fieldOf_tag (b : Byte) : fieldOf b 6 2 = b.toNat / 64 := by
  have hb := b.isLt
  rw [fieldOf, Nat.shiftRight_eq_div_pow, Nat.mod_eq_of_lt (by omega)]

/-- The 6-bit payload is the first byte's place in its quarter (30_encoding R84). -/
theorem fieldOf_payload (b : Byte) : fieldOf b 0 6 = b.toNat % 64 := rfl

/-- Below the two 8-bit tags the 2-bit tag alone chooses the opcode (30_encoding R84, R96). -/
theorem decodeAt_body_cons {b : Byte} (hb : b.toNat < 0xFE) (rest : List Byte) :
    decodeAt .body (b :: rest) =
      if b.toNat / 64 = 0 then .ok (decodeIndex b, rest)
      else if b.toNat / 64 = 1 then .ok (decodeDiff b, rest)
      else if b.toNat / 64 = 2 then decodeLuma b rest
      else .ok (decodeRun b, rest) := by
  have hFE : b ≠ 0xFE := by rintro rfl; exact absurd hb (by decide)
  have hFF : b ≠ 0xFF := by rintro rfl; exact absurd hb (by decide)
  rw [decodeAt, decodeOpcode, if_neg hFE, if_neg hFF, fieldOf_tag]

end Sys2Proof

/-! ### The obligations of 30_encoding -/
namespace Sys2Proof.Machine

/-- Settles O18: this is `decodeAt_encode`, proved by cases on the form. -/
theorem decodingUndoesEncoding : Obligations.DecodingUndoesEncoding := decodeAt_encode

/-- Settles O19, by the position: a frame's bytes are compared whole, an opcode's are put together from their fields. -/
theorem encodingUndoesDecoding : Obligations.EncodingUndoesDecoding := by
  intro p bs i rest h
  cases p with
  | first =>
    obtain ⟨width, height, rfl, hbs⟩ := eq_encode_of_decodeHeader h
    exact ⟨rfl, rfl, hbs⟩
  | body =>
    obtain ⟨hwf, hpos, hbs⟩ := opcodeAt_of_decodeAt_body h
    exact ⟨hwf, hpos, hbs⟩
  | last =>
    obtain ⟨rfl, hbs⟩ := eq_encode_of_decodeEnd h
    exact ⟨rfl, rfl, hbs⟩

/-- Settles O20: the first four ranges are the quarters of the byte range, without the two 8-bit tags. -/
theorem firstByteFixesOpcodeAndLength : Obligations.FirstByteFixesOpcodeAndLength := by
  intro b x y z w rest
  refine ⟨fun hhi => ?index, fun hlo hhi => ?diff, fun hlo hhi => ?luma, fun hlo hhi => ?run, fun hb => ?rgb,
    fun hb => ?rgba⟩
  case index =>
    refine ⟨⟨fieldOf b 0 6, fieldOf_lt b 0 6⟩, Nat.mod_eq_of_lt (by omega), ?_⟩
    rw [decodeAt_body_cons (by omega), if_pos (by omega), decodeIndex]
  case diff =>
    have hdec := decodeAt_body_cons (show b.toNat < 0xFE by omega) (x :: y :: z :: w :: rest)
    rw [if_neg (by omega), if_pos (by omega)] at hdec
    exact ⟨_, _, _, hdec⟩
  case luma =>
    have hdec := decodeAt_body_cons (show b.toNat < 0xFE by omega) (x :: y :: z :: w :: rest)
    rw [if_neg (by omega), if_neg (by omega), if_pos (by omega)] at hdec
    exact ⟨_, _, _, hdec⟩
  case run =>
    have hlow : b.toNat % 64 = b.toNat - 0xC0 := by omega
    rw [decodeAt_body_cons (by omega), if_neg (by omega), if_neg (by omega), if_neg (by omega), decodeRun,
      fieldOf_payload, hlow]
  case rgb =>
    obtain rfl : b = 0xFE := BitVec.eq_of_toNat_eq hb
    exact decodeAt_encode (.rgb x y z) (w :: rest) rfl
  case rgba =>
    obtain rfl : b = 0xFF := BitVec.eq_of_toNat_eq hb
    exact decodeAt_encode (.rgba x y z w) rest rfl

/-- Settles O28: slot Hash(PREV) holds PREV itself, which no INDEX emits, or the table is still clear, where INDEX emits
the seed of slot 0 and Hash(PREV) is 53. -/
theorem indexNeverNamesThePreviousSlot : Obligations.IndexNeverNamesThePreviousSlot := by
  intro s t k hinv h hk
  obtain ⟨cur, -, -, ⟨⟨hne, hhit⟩, hslot⟩, -⟩ := exec_index_eq_next.1 h
  have hsame : hashOf cur = hashOf s.prev := hslot.symm.trans hk
  obtain hstored | ⟨hprev, hclear⟩ := hinv.prevStored
  · have hcur : cur = s.prev :=
      calc cur = s.idx.get (hashOf cur) := hhit.symm
        _ = s.slot (hashOf s.prev) := by rw [hsame]; rfl
        _ = s.prev := hstored
    exact hne hcur
  · have hcur : Config.idxSeed = cur :=
      calc Config.idxSeed = Config.clearTable.get (hashOf cur) := (get_clearTable _).symm
        _ = s.idx.get (hashOf cur) := by rw [hclear]
        _ = cur := hhit
    rw [← hcur, hprev] at hsame
    exact absurd hsame (by decide)

/-- Settles O5: END is Emit of its eight bytes. -/
theorem endAppendsItsEightBytes : Obligations.EndAppendsItsEightBytes := by
  refine ⟨rfl, fun s => ?_⟩
  rw [exec_endMark, State.emit_eq]
  rfl

/-- Settles O17: each word is the encoding of the form it stands for, with nothing after it. -/
theorem writtenOutWordsDecode : Obligations.WrittenOutWordsDecode :=
  ⟨decodeAt_eq_of_encode (i := .index 9) rfl (by decide),
    decodeAt_eq_of_encode (i := .diff (-1) 0 0) rfl (by decide),
    decodeAt_eq_of_encode (i := .luma 12 (-2) (-4)) rfl (by decide),
    decodeAt_eq_of_encode (i := .run 38) rfl (by decide),
    decodeAt_eq_of_encode (i := .rgb 10 20 30) rfl (by decide),
    decodeAt_eq_of_encode (i := .rgba 10 20 30 128) rfl (by decide),
    decodeAt_eq_of_encode (i := .header 258 3) rfl (by decide),
    decodeAt_eq_of_encode (i := .endMark) rfl (by decide)⟩

end Sys2Proof.Machine

/-! ### The frames and RUN on the state, and what a step in BUSY carries along -/
namespace Sys2Proof.Machine

/-- The dimension bytes of HEADER as numbers, most significant first (20_memory R59 (a)). -/
theorem bytesBE_eq (v : U32) :
    bytesBE v = [BitVec.ofNat 8 (v.toNat / 2 ^ 24), BitVec.ofNat 8 (v.toNat / 2 ^ 16),
      BitVec.ofNat 8 (v.toNat / 2 ^ 8), BitVec.ofNat 8 v.toNat] := by
  simp only [bytesBE, BitVec.extractLsb', Nat.shiftRight_eq_div_pow, Nat.pow_zero, Nat.div_one]

/-- A form that stands at either end of the stream runs in every state and is Emit of its bytes (40 R113, 46 R181). -/
theorem exec_of_position_ne_body {i : Instr} (hp : i.position ≠ .body) (s : State) :
    exec i s = .next (s.emit (encode i)) := by
  cases i with
  | header w h => exact exec_header w h s
  | endMark => exact exec_endMark s
  | rgb | rgba | index | diff | luma | run => exact absurd rfl hp

/-- HEADER, END and RUN append their bytes to OUT; RUN alone writes another register, its own (42 R142). -/
theorem eq_of_exec_frame_or_run {i : Instr} {s t : State} (hi : i.position ≠ .body ∨ ∃ n, i = .run n)
    (h : exec i s = .next t) :
    ∃ r, t = { s with out := s.out ++ encode i, run := r } ∧ (i.position ≠ .body → r = s.run) ∧
      ((∃ n, i = .run n) → r = 0) := by
  obtain hp | ⟨n, rfl⟩ := hi
  · rw [exec_of_position_ne_body hp, State.emit_eq] at h
    cases h
    exact ⟨s.run, rfl, fun _ => rfl, fun ⟨n, hn⟩ => absurd (congrArg Instr.position hn) hp⟩
  · obtain ⟨-, rfl⟩ := exec_run_eq_next.1 h
    exact ⟨0, by rw [State.emit_eq], fun hp => absurd rfl hp, fun _ => rfl⟩

/-- In a pixel step the step is `pixelStep` (10_state R32). -/
theorem step_eq_pixelStep {s : State} (he : s.PixelEnabled) : step s = pixelStep s := by
  rw [step_busy he.1, if_pos he.2]

/-- `s` with other dimensions, and with bytes put before its OUT. -/
def State.reframed (s : State) (w h : U32) (earlier : List Byte) : State :=
  { s with width := w, height := h, out := earlier ++ s.out }

section
variable (s : State) (w h : U32) (earlier : List Byte)

theorem State.atPixel_reframed {cur : Pixel} (hat : s.AtPixel cur) : (s.reframed w h earlier).AtPixel cur :=
  ⟨hat.1, (State.fetchPixel_congr rfl rfl s.pos).trans hat.2⟩

theorem State.accumulated_reframed :
    (s.reframed w h earlier).accumulated = s.accumulated.reframed w h earlier := by
  by_cases hcap : s.run = 61
  · rw [State.accumulated_of_cap hcap, State.accumulated_of_cap (s := s.reframed w h earlier) hcap]
    simp [State.reframed]
  · rw [State.accumulated_of_ne_cap hcap, State.accumulated_of_ne_cap (s := s.reframed w h earlier) hcap]
    rfl

theorem State.encoded_reframed (cur : Pixel) :
    (s.reframed w h earlier).encoded cur = (s.encoded cur).reframed w h earlier := by
  simp [State.encoded_eq, State.flushed_eq, State.reframed]

theorem State.finished_reframed : (s.reframed w h earlier).finished = s.finished.reframed w h earlier := by
  simp [State.finished_eq, State.flushed_eq, State.reframed]

end

/-- In BUSY a step neither reads nor writes the dimensions, and it only appends to OUT (40 R114). -/
theorem step_reframed {s t : State} (w h : U32) (earlier : List Byte) (hp : s.phase = .busy)
    (hstep : step s = .next t) :
    step (s.reframed w h earlier) = .next (t.reframed w h earlier) := by
  obtain ⟨hrest, -⟩ | ⟨hrest, -⟩ | ⟨hrest, -⟩ | ⟨hat, rfl⟩ | ⟨cur, hat, hne, hr, rfl⟩ | ⟨-, hpos, hr, rfl⟩ :=
    step_cases hstep
  · exact absurd hp hrest
  · exact absurd hp hrest
  · exact absurd hp hrest
  · have hat' := s.atPixel_reframed w h earlier hat
    rw [step_eq_pixelStep hat'.1, pixelStep_run hat', State.accumulated_reframed]
    rfl
  · have hat' := s.atPixel_reframed w h earlier hat
    rw [step_eq_pixelStep hat'.1, pixelStep_other hat' hne hr, State.encoded_reframed]
    rfl
  · rw [step_eq_finish (s := s.reframed w h earlier) hp hpos, finish_eq_next]
    exact ⟨hr, (s.finished_reframed w h earlier).symm⟩

end Sys2Proof.Machine

/-! ### The obligations of 40_framing_header -/
namespace Sys2Proof.Machine

/-- Settles O13: each of the three forms appends its bytes, and RUN clears its register. -/
theorem frameAndRunFrame : Obligations.FrameAndRunFrame := by
  intro i s t hi h
  obtain ⟨r, rfl, hframe, hrun⟩ := eq_of_exec_frame_or_run hi h
  have hlen : (encode i).length = i.size := encode_length i
  have happ : s.Appends { s with out := s.out ++ encode i, run := r } i.size i.size :=
    ⟨encode i, rfl, hlen.ge, hlen.le⟩
  have hbounds := happ.outLen_bounds
  exact ⟨Nat.le_antisymm hbounds.2 hbounds.1, fun a => happ.outByte_eq, hframe, hrun, rfl, fun _ => rfl, rfl, rfl, rfl,
    rfl, rfl, rfl, rfl, fun _ => rfl, rfl, rfl⟩

/-- Settles O44: with an empty OUT, the bytes put before it are the whole of the earlier output. -/
theorem stepIgnoresDimensionsAndEarlierOutput : Obligations.StepIgnoresDimensionsAndEarlierOutput := by
  intro s t w h earlier hp hout hstep
  have hs : { s with width := w, height := h, out := earlier } = s.reframed w h earlier := by
    rw [State.reframed, hout, List.append_nil]
  rw [hs]
  exact step_reframed w h earlier hp hstep

/-- Settles O4: HEADER is Emit of its bytes, and the dimensions' bytes are the quotients by powers of 2. -/
theorem headerAppendsItsFourteenBytes : Obligations.HeaderAppendsItsFourteenBytes := by
  intro w h s
  rw [exec_header, State.emit_eq, encode, bytesBE_eq, bytesBE_eq]
  rfl

/-- Settles O30: START in its passing branch, and FINISH. -/
theorem stepRunsTheFrames : Obligations.StepRunsTheFrames := by
  refine ⟨fun s hs hl => ?_, fun s hp hpos => ?_⟩
  · rw [step_starting hs, if_pos hl, exec_header, andThen_next, State.started]
  · rw [step_eq_finish hp hpos]
    rfl

/-- Settles O33: the state after a START that passes, register by register. -/
theorem startBeginsAnEncode : Obligations.StartBeginsAnEncode := by
  intro s hs hl
  rw [step_starting hs, if_pos hl, State.started_eq]
  rfl

end Sys2Proof.Machine

/-! ### The pixel step as a whole: sequencing, POS and RUN's byte -/
namespace Sys2Proof.Machine

@[simp] theorem State.started_pos (s : State) : s.started.pos = 0 := by simp [State.started_eq]
@[simp] theorem State.started_npix (s : State) : s.started.npix = s.width.toNat * s.height.toNat := by
  simp [State.started_eq]
@[simp] theorem State.encoded_pos (s : State) (cur : Pixel) : (s.encoded cur).pos = s.pos := by
  simp [State.encoded_eq]
@[simp] theorem State.finished_pos (s : State) : s.finished.pos = s.pos := by simp [State.finished_eq]
@[simp] theorem State.accumulated_pos (s : State) : s.accumulated.pos = s.pos := by
  unfold State.accumulated; split <;> simp

/-- Sequencing is associative: a stop anywhere is the stop of the whole. -/
theorem andThen_assoc (o : Result) (f g : State → Result) :
    andThen (andThen o f) g = andThen o fun s => andThen (f s) g := by
  cases o <;> rfl

/-- RUN's byte as a sum: the tag and the biased count share no bit (30_encoding R88). -/
theorem encode_run {n : Nat} (hn : n ≤ 62) : encode (.run n) = [BitVec.ofNat 8 (192 + (n - 1))] := by
  have hor : 192 + (n - 1) = 192 ||| (n - 1) := Nat.two_pow_add_eq_or_of_lt (i := 6) (by omega) 3
  rw [encode, hor]

/-- The state a pixel opcode leaves: in a pixel step with no run pending, its bytes are appended and the fetched pixel,
which differs from PREV and for which the chain chooses the opcode, is remembered (41 R122, R123). -/
theorem eq_of_exec_pixelOpcode {i : Instr} {s t : State} (hp : i.position = .body) (hr : ∀ n, i ≠ .run n)
    (h : exec i s = .next t) :
    ∃ cur, s.AtPixel cur ∧ i = select cur s.prev s.idx ∧ t = (s.emit (encode i)).remember cur := by
  obtain ⟨p, hexec, hchosen⟩ := exec_pixelOpcode s hp hr
  rw [hexec] at h
  obtain ⟨cur, he, hf, -, hcur, ht⟩ := State.asOutcome_eq_next.1 h
  exact ⟨cur, ⟨he, hf⟩, (hchosen cur hcur).2, ht⟩

end Sys2Proof.Machine

/-! ### An encode from START to DONE -/
namespace Sys2Proof.Machine

theorem State.SameInput.refl (s : State) : s.SameInput s := ⟨rfl, rfl, rfl, rfl⟩

theorem State.SameInput.trans {s t u : State} (h : s.SameInput t) (h' : t.SameInput u) : s.SameInput u :=
  ⟨h'.input.trans h.input, h'.len.trans h.len, h'.width.trans h.width, h'.height.trans h.height⟩

/-- `t` is a state of the encode of the same image as `s`, `k` pixels further on. -/
structure State.EncodesOn (s t : State) (k : Nat) : Prop where
  busy : t.phase = .busy
  pos : t.pos = s.pos + k
  sameInput : s.SameInput t
  inv : t.EncodeInv

/-- The pixel count does not change within an encode (10_state R30). -/
theorem State.EncodesOn.npix {s t : State} {k : Nat} (h : s.EncodesOn t k) (hs : s.EncodeInv) : t.npix = s.npix := by
  rw [h.inv.npixIs, hs.npixIs, h.sameInput.width, h.sameInput.height]

/-- In an encode the pixel at POS lies below LEN, so it is fetched (41 R121, 10_state R37 (b)). -/
theorem State.EncodeInv.atPixel {s : State} (h : s.EncodeInv) (he : s.PixelEnabled) : s.AtPixel (s.pixelAt s.pos) := by
  have hlen := h.lenIs
  have hpos := he.2
  exact ⟨he, State.fetchPixel_of_le (by omega)⟩

/-- In an encode every pixel step completes and leads to the next pixel of the same encode (41 R120, R129). -/
theorem State.EncodeInv.exists_step {s : State} (h : s.EncodeInv) (he : s.PixelEnabled) :
    ∃ t, step s = .next t ∧ s.EncodesOn t 1 := by
  have hat := h.atPixel he
  by_cases hrun : s.pixelAt s.pos = s.prev
  · rw [hrun] at hat
    have hstep := (step_eq_pixelStep he).trans (pixelStep_run hat)
    exact ⟨_, hstep, by simpa using he.1, by simp, step_sameInput hstep, h.accumulated hat⟩
  · have hstep := (step_eq_pixelStep he).trans (pixelStep_other hat hrun (h.runBound.trans (by decide)))
    exact ⟨_, hstep, by simpa using he.1, by simp, step_sameInput hstep, h.encoded hat hrun⟩

/-- In an encode with `k` pixels left or more, `k` steps complete and read `k` pixels. -/
theorem State.EncodeInv.exists_runFor (k : Nat) : ∀ {s : State}, s.EncodeInv → s.phase = .busy → s.pos + k ≤ s.npix →
    ∃ t, runFor k s = .next t ∧ s.EncodesOn t k := by
  induction k with
  | zero => intro s h hp _; exact ⟨s, rfl, hp, rfl, .refl s, h⟩
  | succ k ih =>
    intro s h hp hk
    obtain ⟨t, hstep, ht⟩ := h.exists_step ⟨hp, by omega⟩
    have hpos := ht.pos
    have hleft : t.pos + k ≤ t.npix := by rw [ht.npix h]; omega
    obtain ⟨u, hrun, hu⟩ := ih ht.inv ht.busy hleft
    refine ⟨u, by rw [runFor_succ, hstep, andThen_next, hrun], hu.busy, ?_, ht.sameInput.trans hu.sameInput, hu.inv⟩
    have hpos' := hu.pos
    omega

/-- An encode ends: one step for each pixel left and one for FINISH lead to DONE (70 R235, 46 R183). -/
theorem State.EncodeInv.exists_done {s : State} (h : s.EncodeInv) (hp : s.phase = .busy) {k : Nat}
    (hk : s.pos + k = s.npix) :
    ∃ t, runFor (k + 1) s = .next t ∧ t.phase = .done ∧ s.SameInput t ∧ t.DoneInv := by
  obtain ⟨u, hrun, hu⟩ := h.exists_runFor k hp hk.le
  have hpos : u.pos = u.npix := by rw [hu.pos, hu.npix h, hk]
  have hfinish : step u = .next u.finished := by
    rw [step_eq_finish hu.busy hpos]
    exact finish_eq_next.2 ⟨hu.inv.runBound.trans (by decide), rfl⟩
  refine ⟨u.finished, ?_, u.finished_phase, hu.sameInput.trans (step_sameInput hfinish), hu.inv.finished hpos⟩
  rw [runFor_add, hrun, andThen_next, runFor_succ, hfinish, andThen_next, runFor_zero]

end Sys2Proof.Machine

/-! ### The deltas: their range, their wrapping and their unsigned forms -/
namespace Sys2Proof.Machine

/-- The signed reading of a pattern stays in the signed range (00_scope R10). -/
theorem sint8_bounds {v : Nat} (hv : v < 256) : -128 ≤ sint8 v ∧ sint8 v ≤ 127 := by
  unfold sint8
  split <;> omega

/-- The signed reading of a pattern is the pattern, or 256 less (00_scope R10). -/
theorem sint8_emod (v : Nat) : (sint8 v - v) % 256 = 0 := by
  unfold sint8
  split <;> omega

theorem wrapDiff_lt (c p : Byte) : wrapDiff c p < 256 := Nat.mod_lt _ (by decide)

theorem wrapDiff_emod (c p : Byte) : ((wrapDiff c p : Int) - ((c.toNat : Int) - (p.toNat : Int))) % 256 = 0 := by
  have hp := p.isLt
  unfold wrapDiff
  omega

/-- Each delta lies in the signed range (41 R124). -/
theorem delta8_bounds (c p : Byte) : -128 ≤ delta8 c p ∧ delta8 c p ≤ 127 := sint8_bounds (wrapDiff_lt c p)

/-- Each delta is the channels' difference modulo 256 (41 R124). -/
theorem delta8_emod (c p : Byte) : (delta8 c p - ((c.toNat : Int) - (p.toNat : Int))) % 256 = 0 := by
  have hsigned : (delta8 c p - wrapDiff c p) % 256 = 0 := sint8_emod _
  have hwrap := wrapDiff_emod c p
  omega

/-- A delta is 0 exactly for equal channels, which differ by less than 256 (41 R124). -/
theorem delta8_eq_zero_iff (c p : Byte) : delta8 c p = 0 ↔ c = p := by
  have hc := c.isLt
  have hp := p.isLt
  have hmod := delta8_emod c p
  have hbounds := delta8_bounds c p
  rw [← BitVec.toNat_inj]
  omega

/-- Wrapped to 8 bits, a difference in [-159,159] lies in a luma offset's range exactly when it did before (41 R126). -/
theorem sint8_wrapped_offset_iff {x : Int} (hlo : -159 ≤ x) (hhi : x ≤ 159) :
    (-8 ≤ sint8 (x % 256).toNat ∧ sint8 (x % 256).toNat ≤ 7) ↔ -8 ≤ x ∧ x ≤ 7 := by
  unfold sint8
  split <;> omega

/-- Wrapped to 8 bits, a value in the signed range is itself (41 R126). -/
theorem sint8_wrapped_eq {x : Int} (hlo : -128 ≤ x) (hhi : x ≤ 127) : sint8 (x % 256).toNat = x := by
  unfold sint8
  split <;> omega

/-- Where dg lies in LUMA's range, the plain differences lie in [-159,159] (41 R126). -/
theorem luma_differences_bounds (cur prev : Pixel) (hlo : -32 ≤ (delta cur prev).dg) (hhi : (delta cur prev).dg ≤ 31) :
    (-159 ≤ (delta cur prev).dgr ∧ (delta cur prev).dgr ≤ 159) ∧
      -159 ≤ (delta cur prev).dgb ∧ (delta cur prev).dgb ≤ 159 := by
  have hr : -128 ≤ (delta cur prev).dr ∧ (delta cur prev).dr ≤ 127 := delta8_bounds _ _
  have hb : -128 ≤ (delta cur prev).db ∧ (delta cur prev).db ≤ 127 := delta8_bounds _ _
  unfold Deltas.dgr Deltas.dgb
  omega

/-- The test that the signed reading lies in [-bias, bias - 1] is the unsigned test that the pattern plus the bias lies
below 2 * bias modulo 256, which is then the value of the biased field (41 R128). -/
theorem sint8_biased {v bias : Nat} (hv : v < 256) (hbias : bias ≤ 128) :
    ((-(bias : Int) ≤ sint8 v ∧ sint8 v ≤ bias - 1) ↔ (v + bias) % 256 < 2 * bias) ∧
    ((v + bias) % 256 < 2 * bias → (sint8 v + bias).toNat = (v + bias) % 256) := by
  unfold sint8
  split <;> omega

/-- The unsigned form of a luma offset's test and field, where dg passes its own test (41 R128). -/
theorem sint8_offset {u g : Nat} (hu : u < 256) (hg : g < 256) (hok : GreenOkUnsigned g) :
    ((-8 ≤ sint8 u - sint8 g ∧ sint8 u - sint8 g ≤ 7) ↔ OffsetOkUnsigned u g) ∧
    (OffsetOkUnsigned u g → (sint8 u - sint8 g + 8).toNat = lumaFieldUnsigned u g) := by
  unfold GreenOkUnsigned at hok
  unfold OffsetOkUnsigned lumaFieldUnsigned sint8
  split <;> split <;> omega

/-- The hash depends on each channel's low six bits only (41 R128). -/
theorem hashOf_val (p : Pixel) : (hashOf p).val = hashLow p := by
  show hashSum p % 64 = _
  unfold hashSum hashLow
  omega

end Sys2Proof.Machine

/-! ### The priority chain as tests in order -/
namespace Sys2Proof.Machine

/-- Of the conditions of a chain of five tests in order, each of which excludes the ones before it, exactly one holds;
the tests are in turn equality with PREV, the lookup, the alpha gate, SmallOk and LumaOk (41 R122). -/
theorem count_priority_chain : ∀ run hit alpha small luma : Bool,
    [run, !run && hit, (!run && (!hit && alpha)) && small, (!run && (!hit && alpha)) && (!small && luma),
      (!run && (!hit && alpha)) && (!small && !luma), !run && (!hit && !alpha)].count true = 1 := by decide

end Sys2Proof.Machine

/-! ### The obligations of 41_pixel_step -/
namespace Sys2Proof.Machine

/-- Settles O53: START enters the invariant of an encode with NPIX pixels left, and FINISH leaves it with what DONE
promises, about an image and dimensions that no step has written. -/
theorem encodeIsLosslessAndTerminates : Obligations.EncodeIsLosslessAndTerminates := by
  intro s hs hl
  have hstart : step s = .next s.started := by rw [step_starting hs, if_pos hl]
  obtain ⟨t, hrun, hdone, hsame, hinv⟩ :=
    (State.encodeInv_started hl).exists_done s.started_phase (k := s.width.toNat * s.height.toNat) (by simp)
  have hin : s.SameInput t := (step_sameInput hstart).trans hsame
  have hnpix : t.npix = s.width.toNat * s.height.toNat := by rw [hinv.npixIs, hin.width, hin.height]
  refine ⟨t, by rw [runFor_succ, hstart, andThen_next, hrun], hdone, hostReadOut_eq_some.2 ⟨hdone, rfl⟩, ?_,
    hinv.endLast, ?_, hinv.outLow, ?_, ?_⟩
  · rw [hinv.headerFirst, hin.width, hin.height]
  · rw [hinv.reads, hin.width, hin.height, hnpix, State.image_congr hin.input]
  · exact hnpix ▸ hinv.outHigh
  · exact hnpix ▸ hinv.outEnough

/-- Settles O12: the opcode's bytes are appended and the fetched pixel is remembered. -/
theorem pixelOpcodeFrame : Obligations.PixelOpcodeFrame := by
  intro i s t hp hr h
  obtain ⟨cur, hat, -, rfl⟩ := eq_of_exec_pixelOpcode hp hr h
  have hlen : (encode i).length = i.size := encode_length i
  have happ : s.Appends ((s.emit (encode i)).remember cur) i.size i.size :=
    ⟨encode i, by simp, hlen.ge, hlen.le⟩
  have hbounds := happ.outLen_bounds
  refine ⟨Nat.le_antisymm hbounds.2 hbounds.1, fun a => happ.outByte_eq, hat, ?_, ?_, ?_⟩
  · exact get_writeSlot_same _ _ _
  · intro k hk
    have hother : k ≠ hashOf cur := hk
    rw [State.slot, State.remember_idx, get_writeSlot_other _ _ hother, State.emit_idx, State.slot]
  · simp

/-- Settles O14: an opcode that runs is the choice for the one pixel at POS, and the choice runs. -/
theorem exactlyOnePixelOpcodeRuns : Obligations.ExactlyOnePixelOpcodeRuns := by
  intro s cur hat h0 hne i hp hr
  constructor
  · rintro ⟨t, h⟩
    obtain ⟨cur', hat', hi, -⟩ := eq_of_exec_pixelOpcode hp hr h
    have hsame : cur' = cur := hat'.eq_pixelAt.trans hat.eq_pixelAt.symm
    rwa [hsame] at hi
  · rintro rfl
    exact ⟨_, exec_select hat h0 hne⟩

/-- Settles O23: each test by its bias, 2 for DIFF and 32 for dg, and the luma offsets under the dg test. -/
theorem unsignedFormsAgree : Obligations.UnsignedFormsAgree := by
  refine ⟨fun c p => ?_, fun c p => ?_, fun c p cg pg => sint8_offset (wrapDiff_lt c p) (wrapDiff_lt cg pg), hashOf_val⟩
  · exact sint8_biased (bias := 2) (wrapDiff_lt c p) (by decide)
  · exact sint8_biased (bias := 32) (wrapDiff_lt c p) (by decide)

/-- Settles O32: the pixel step of another pixel, register by register. -/
theorem otherPixelIsFlushedForThenEncoded : Obligations.OtherPixelIsFlushedForThenEncoded := by
  intro s cur hat hne hr
  rw [step_eq_pixelStep hat.1, pixelStep_other hat hne (by omega), State.encoded_eq, State.flushed_out,
    encode_run (by omega)]
  rfl

/-- Settles O36, by the six things a step can do. -/
theorem positionMovesByOneInPixelStepsOnly : Obligations.PositionMovesByOneInPixelStepsOnly := by
  intro s t h
  obtain ⟨hp, -, rfl⟩ | ⟨hp, hs, -, rfl⟩ | ⟨hp, hs, -, rfl⟩ | ⟨hat, rfl⟩ | ⟨cur, hat, -, -, rfl⟩ |
    ⟨-, hpos, -, rfl⟩ := step_cases h
  · exact ⟨fun he => absurd he.1 hp, fun _ _ => rfl⟩
  · exact ⟨fun he => absurd he.1 hp, fun _ hn => absurd ⟨hp, hs⟩ hn⟩
  · exact ⟨fun he => absurd he.1 hp, fun _ hn => absurd ⟨hp, hs⟩ hn⟩
  · exact ⟨fun _ => by simp, fun hn => absurd hat.1 hn⟩
  · exact ⟨fun _ => by simp, fun hn => absurd hat.1 hn⟩
  · exact ⟨fun he => absurd hpos he.2.ne, fun _ _ => s.finished_pos⟩

/-- Settles O21: range, congruence and zero, and the corners by evaluation. -/
theorem deltaIsTheWrappedSignedDifference : Obligations.DeltaIsTheWrappedSignedDifference :=
  ⟨fun _ _ => ⟨rfl, rfl, rfl⟩,
    fun c p => ⟨(delta8_bounds c p).1, (delta8_bounds c p).2, delta8_emod c p, delta8_eq_zero_iff c p⟩, by decide⟩

/-- Settles O22: under the dg test the differences lie in [-159,159], where wrapping keeps the offsets' range test, and
inside that range it keeps the value. -/
theorem wrappingLumaDifferencesIsHarmless : Obligations.WrappingLumaDifferencesIsHarmless := by
  refine ⟨fun _ => ⟨rfl, rfl⟩, fun cur prev hlo hhi => ?_, fun cur prev => ⟨?_, fun hluma => ?_⟩⟩
  · obtain ⟨hr, hb⟩ := luma_differences_bounds cur prev hlo hhi
    exact ⟨hr.1, hr.2, hb⟩
  · refine and_congr_right fun ⟨hlo, hhi⟩ => ?_
    obtain ⟨⟨hr, hr'⟩, hb, hb'⟩ := luma_differences_bounds cur prev hlo hhi
    rw [sint8_wrapped_offset_iff hr hr', sint8_wrapped_offset_iff hb hb']
  · obtain ⟨-, ⟨hr, hr'⟩, hb, hb'⟩ := hluma
    rw [sint8_wrapped_eq (by omega) (by omega), sint8_wrapped_eq (by omega) (by omega)]

/-- Settles O25: the six conditions are those of a chain of five tests in order. -/
theorem exactlyOneConditionHolds : Obligations.ExactlyOneConditionHolds := by
  intro cur prev idx
  simp only [Bool.decide_and, decide_not]
  exact count_priority_chain _ _ _ _ _

/-- Settles O29: the chain's branch for a pixel that differs from PREV, with the sequence regrouped. -/
theorem stepRunsTheSelectedOpcode : Obligations.StepRunsTheSelectedOpcode := by
  intro s cur hat hne
  rw [step_eq_pixelStep hat.1, pixelStep, hat.2]
  simp only [if_neg hne, encodePixel, andThen_assoc]
  rfl

end Sys2Proof.Machine

/-! ### RUN, and a stretch of run pixels -/
namespace Sys2Proof.Machine

/-- RUN is refused for a number of pixels that is not the pending run, or that one RUN cannot carry (42 R142; log
entry 9). -/
theorem exec_run_refused {n : Nat} {s : State} (h : ¬ (n = s.run ∧ 1 ≤ n ∧ n ≤ Config.runMax)) :
    exec (.run n) s = .refused .noPendingRun := by
  show execRun n s = _
  rw [execRun, if_neg h]

/-- The step of a run pixel counts it (41 R120, R129, 42 R141). -/
theorem step_run_pixel {s : State} (hat : s.AtPixel s.prev) : step s = .next s.accumulated.advance :=
  (step_eq_pixelStep hat.1).trans (pixelStep_run hat)

/-- `s` after a stretch of `k` run pixels: one 0xFD for every 62 counted, and the remainder pending (42 R145). -/
def State.countedRuns (s : State) (k : Nat) : State :=
  { s with out := s.out ++ List.replicate ((s.run + k) / 62) 0xFD, run := (s.run + k) % 62, pos := s.pos + k }

/-- A stretch of no pixels changes nothing, since fewer than 62 are pending. -/
theorem State.countedRuns_zero {s : State} (hr : s.run ≤ 61) : s.countedRuns 0 = s := by
  have hdiv : (s.run + 0) / 62 = 0 := by omega
  have hmod : (s.run + 0) % 62 = s.run := by omega
  rw [State.countedRuns, hdiv, hmod, List.replicate_zero, List.append_nil, Nat.add_zero]

/-- A stretch of one pixel is the count of 42 R141, with its flush at the cap. -/
theorem State.countedRuns_one {s : State} (hr : s.run ≤ 61) : s.countedRuns 1 = s.accumulated.advance := by
  by_cases hcap : s.run = 61
  · rw [State.accumulated_of_cap hcap, State.countedRuns, hcap]
    rfl
  · have hdiv : (s.run + 1) / 62 = 0 := by omega
    have hmod : (s.run + 1) % 62 = s.run + 1 := by omega
    rw [State.accumulated_of_ne_cap hcap, State.countedRuns, hdiv, hmod, List.replicate_zero, List.append_nil]
    rfl

/-- Two stretches, one after the other, are one: what the first leaves pending counts towards the second's 62. -/
theorem State.countedRuns_add (s : State) (j k : Nat) : (s.countedRuns j).countedRuns k = s.countedRuns (j + k) := by
  have hdiv : (s.run + j) / 62 + ((s.run + j) % 62 + k) / 62 = (s.run + (j + k)) / 62 := by omega
  have hmod : ((s.run + j) % 62 + k) % 62 = (s.run + (j + k)) % 62 := by omega
  simp only [State.countedRuns, List.append_assoc, List.replicate_append_replicate, hdiv, hmod, Nat.add_assoc]

/-- After a stretch fewer than 62 pixels are pending (10_state R37 (a)). -/
theorem State.countedRuns_run_le (s : State) (k : Nat) : (s.countedRuns k).run ≤ 61 :=
  Nat.le_of_lt_succ (Nat.mod_lt _ (by decide))

/-- The fetch does not see what a stretch writes. -/
theorem State.fetchPixel_countedRuns (s : State) (k i : Nat) : (s.countedRuns k).fetchPixel i = s.fetchPixel i :=
  State.fetchPixel_congr rfl rfl i

/-- `k` steps over `k` pixels equal to PREV count them (42 R145 (b), (d)). -/
theorem runFor_countedRuns (k : Nat) : ∀ {s : State}, s.phase = .busy → s.run ≤ 61 → s.pos + k ≤ s.npix →
    (∀ i, s.pos ≤ i → i < s.pos + k → s.fetchPixel i = some s.prev) → runFor k s = .next (s.countedRuns k) := by
  induction k with
  | zero => intro s _ hr _ _; rw [State.countedRuns_zero hr, runFor_zero]
  | succ k ih =>
    intro s hp hr hk hpix
    have hat : s.AtPixel s.prev := ⟨⟨hp, by omega⟩, hpix s.pos le_rfl (by omega)⟩
    have hstep : step s = .next (s.countedRuns 1) := by rw [step_run_pixel hat, State.countedRuns_one hr]
    have hpos : (s.countedRuns 1).pos = s.pos + 1 := rfl
    have hrest : runFor k (s.countedRuns 1) = .next ((s.countedRuns 1).countedRuns k) := by
      refine ih (s := s.countedRuns 1) hp (s.countedRuns_run_le 1) ?_ fun i hlo hhi => ?_
      · exact (Nat.add_right_comm s.pos 1 k).trans_le hk
      · rw [hpos] at hlo hhi
        exact (s.fetchPixel_countedRuns 1 i).trans (hpix i (by omega) (by omega))
    rw [runFor_succ, hstep, andThen_next, hrest, State.countedRuns_add, Nat.add_comm]

end Sys2Proof.Machine

/-! ### The obligations of 42_run -/
namespace Sys2Proof.Machine

/-- Settles O52, by induction on the stretch: a run pixel is a stretch of one, and stretches add up. -/
theorem stretchOfRunPixels : Obligations.StretchOfRunPixels := by
  intro k s hp hr hk hpix
  exact runFor_countedRuns k hp hr hk hpix

/-- Settles O6: RUN's precondition holds, and its byte is a sum. -/
theorem runFlushesThePendingRun : Obligations.RunFlushesThePendingRun := by
  intro s h1 h62
  rw [exec_run_eq_next, encode_run h62, State.emit_eq]
  exact ⟨⟨rfl, h1, h62⟩, rfl⟩

/-- Settles O16: each of the three cases is outside RUN's precondition. -/
theorem runStopsWithoutItsRun : Obligations.RunStopsWithoutItsRun := by
  intro n s hout
  refine exec_run_refused fun ⟨hn, h1, h62⟩ => ?_
  rw [Config.runMax] at h62
  omega

/-- Settles O31: the step of a run pixel, below the cap and at it. -/
theorem runPixelIsCountedOrFlushedAtTheCap : Obligations.RunPixelIsCountedOrFlushedAtTheCap := by
  intro s hat
  rw [step_run_pixel hat]
  refine ⟨fun hlt => ?_, fun hcap => ?_⟩
  · rw [State.accumulated_of_ne_cap hlt.ne]
    rfl
  · rw [State.accumulated_of_cap hcap]
    rfl

end Sys2Proof.Machine

/-! ### The lookup: a hit writes back what its slot holds, and the table START leaves -/
namespace Sys2Proof.Machine

/-- INDEX's byte is the slot number: its tag is 0 (30_encoding R85). -/
theorem encode_index (k : Slot) : encode (.index k) = [BitVec.ofNat 8 k.val] := by
  rw [encode, Nat.zero_or]

/-- On a hit the slot already holds the pixel, so remembering it changes PREV only (41 R123 (a)). -/
theorem State.remember_of_hit {s : State} {cur : Pixel} (hhit : s.slot (hashOf cur) = cur) :
    s.remember cur = { s with prev := cur } := by
  have hidx : writeSlot s.idx (hashOf cur) cur = s.idx :=
    calc writeSlot s.idx (hashOf cur) cur
        = writeSlot s.idx (hashOf cur) (s.idx.get (hashOf cur)) := congrArg _ hhit.symm
      _ = s.idx := writeSlot_get _ _
  rw [State.remember, hidx]

/-- START leaves the seed in every slot (40 R112). -/
@[simp] theorem State.started_slot (s : State) (k : Slot) : s.started.slot k = Config.idxSeed := by
  rw [State.slot, State.started_eq, get_clearTable]

end Sys2Proof.Machine

/-! ### The obligations of 43_index -/
namespace Sys2Proof.Machine

/-- Settles O7: INDEX is the outcome of a hit, its byte is the slot number, and the table is written back as it is. -/
theorem indexEmitsTheSlot : Obligations.IndexEmitsTheSlot := by
  intro s cur hat hr hne hhit
  have hhit' : (s.emit (encode (.index (hashOf cur)))).slot (hashOf cur) = cur := by
    rw [State.slot, State.emit_idx]
    exact hhit
  rw [exec_index_eq_next.2 ⟨cur, hat, hr, ⟨⟨hne, hhit⟩, rfl⟩, rfl⟩, State.remember_of_hit hhit', State.emit_eq,
    encode_index]

/-- Settles O27: every slot holds the seed (0,0,0,0), so a pixel's own slot holds it iff it is the seed. -/
theorem onlyZeroPixelHitsTheClearedTable : Obligations.OnlyZeroPixelHitsTheClearedTable := by
  intro s t hs hl h cur
  rw [step_starting hs, if_pos hl] at h
  cases h
  rw [State.started_slot]
  exact eq_comm

end Sys2Proof.Machine

/-! ### The bytes of DIFF and LUMA as sums -/
namespace Sys2Proof.Machine

/-- Put together bit by bit, a multiple of a power of 2 and a number below that power add up: they share no bit. -/
theorem or_eq_add_of_dvd_of_lt {a b i : Nat} (ha : 2 ^ i ∣ a) (hb : b < 2 ^ i) : a ||| b = a + b := by
  obtain ⟨k, rfl⟩ := ha
  exact (Nat.two_pow_add_eq_or_of_lt hb k).symm

/-- DIFF's byte as a sum: the tag and the three biased deltas, two bits each (30_encoding R86). -/
theorem encode_diff {dr dg db : Int} (hr : dr ≤ 1) (hg : dg ≤ 1) (hb : db ≤ 1) :
    encode (.diff dr dg db) =
      [BitVec.ofNat 8 (64 + 16 * (dr + 2).toNat + 4 * (dg + 2).toNat + (db + 2).toNat)] := by
  have hr_or : 64 ||| (dr + 2).toNat <<< 4 = 64 + (dr + 2).toNat <<< 4 :=
    or_eq_add_of_dvd_of_lt (i := 6) (by decide) (by omega)
  have hg_or : (64 + (dr + 2).toNat <<< 4) ||| (dg + 2).toNat <<< 2 =
      64 + (dr + 2).toNat <<< 4 + (dg + 2).toNat <<< 2 := or_eq_add_of_dvd_of_lt (i := 4) (by omega) (by omega)
  rw [encode, hr_or, hg_or, or_eq_add_of_dvd_of_lt (i := 2) (by omega) (by omega)]
  simp only [Nat.shiftLeft_eq, Nat.mul_comm]

/-- LUMA's bytes as sums: the tag and the biased dg, then the two biased offsets, four bits each (30_encoding R87). -/
theorem encode_luma {dg dgr dgb : Int} (hg : dg ≤ 31) (hb : dgb ≤ 7) :
    encode (.luma dg dgr dgb) =
      [BitVec.ofNat 8 (128 + (dg + 32).toNat), BitVec.ofNat 8 (16 * (dgr + 8).toNat + (dgb + 8).toNat)] := by
  rw [encode, or_eq_add_of_dvd_of_lt (i := 6) (by decide) (by omega),
    or_eq_add_of_dvd_of_lt (i := 4) (by omega) (by omega)]
  simp only [Nat.shiftLeft_eq, Nat.mul_comm]

end Sys2Proof.Machine

/-! ### The obligations of 44_diff_luma -/
namespace Sys2Proof.Machine

/-- Settles O24, by the five forms the chain can answer: this is `Reader.take_select`. -/
theorem selectedOpcodeDenotesThePixel : Obligations.SelectedOpcodeDenotesThePixel :=
  fun _ _ idx px hne => Reader.take_select idx px hne

/-- Settles O8: DIFF is the outcome of such a pixel, and its byte is a sum. -/
theorem diffEmitsThreeSmallDeltas : Obligations.DiffEmitsThreeSmallDeltas := by
  rintro s cur _ _ _ hat h0 hne hmiss ha rfl rfl rfl hr hr' hg hg' hb hb'
  have hdiff : ChoosesDiff cur s.prev s.idx := ⟨⟨hne, hmiss, ha⟩, ⟨hr, hr'⟩, ⟨hg, hg'⟩, hb, hb'⟩
  refine exec_diff_eq_next.2 ⟨cur, hat, h0, ⟨hdiff, rfl⟩, ?_⟩
  rw [encode_diff hr' hg' hb', State.emit_eq]
  rfl

/-- Settles O9: LUMA is the outcome of such a pixel, and its two bytes are sums. -/
theorem lumaEmitsGreenAndTwoOffsets : Obligations.LumaEmitsGreenAndTwoOffsets := by
  rintro s cur _ _ _ hat h0 hne hmiss ha rfl rfl rfl hbig hg hg' hr hr' hb hb'
  have hluma : ChoosesLuma cur s.prev s.idx := ⟨⟨hne, hmiss, ha⟩, hbig, ⟨hg, hg'⟩, ⟨hr, hr'⟩, hb, hb'⟩
  refine exec_luma_eq_next.2 ⟨cur, hat, h0, ⟨hluma, rfl, rfl, rfl⟩, ?_⟩
  rw [encode_luma hg' hb', State.emit_eq]
  rfl

/-- Settles O26: the alpha gate is closed, so of the chain only the lookup and RGBA are left. -/
theorem changedAlphaIsIndexOrRgba : Obligations.ChangedAlphaIsIndexOrRgba := by
  intro cur prev idx ha
  rw [select, if_neg ha]

end Sys2Proof.Machine

/-! ### The obligations of 45_literals -/
namespace Sys2Proof.Machine

/-- Settles O10: RGB is the outcome of such a pixel, and its four bytes are the row of `encode`. -/
theorem rgbEmitsThreeRawChannels : Obligations.RgbEmitsThreeRawChannels := by
  rintro s cur _ _ _ hat h0 hne hmiss ha rfl rfl rfl hbig hfar
  have hrgb : ChoosesRgb cur s.prev s.idx := ⟨⟨hne, hmiss, ha⟩, hbig, hfar⟩
  refine exec_rgb_eq_next.2 ⟨cur, hat, h0, ⟨hrgb, rfl, rfl, rfl⟩, ?_⟩
  rw [encode, State.emit_eq]
  rfl

/-- Settles O11: RGBA is the outcome of such a pixel, and its five bytes are the row of `encode`. -/
theorem rgbaEmitsFourRawChannels : Obligations.RgbaEmitsFourRawChannels := by
  intro s cur hat h0 hne hmiss ha
  have hrgba : ChoosesRgba cur s.prev s.idx := ⟨hne, hmiss, ha⟩
  refine exec_rgba_eq_next.2 ⟨cur, hat, h0, ⟨hrgba, rfl⟩, ?_⟩
  rw [encode, State.emit_eq]
  rfl

end Sys2Proof.Machine

/-! ### The obligation of 46_framing_end -/
namespace Sys2Proof.Machine

/-- Settles O35: below the cap FINISH completes, and the flushed run's byte is a sum. -/
theorem finishFlushesAndCloses : Obligations.FinishFlushesAndCloses := by
  intro s hp hpos hr
  have hfinish : finish s = .next s.finished := finish_eq_next.2 ⟨by omega, rfl⟩
  rw [step_eq_finish hp hpos, hfinish, State.finished_eq, State.flushed_out, encode_run (by omega), encode]
  rfl

end Sys2Proof.Machine

/-! ### A failing START, rest, and the steps that always complete -/
namespace Sys2Proof.Machine

/-- A START whose check fails is taken as MalformedInput (60 R190, R191). -/
theorem step_starting_of_malformed {s : State} (h : s.Starting) (hl : ¬ s.LengthOk) :
    step s = .next s.startCleared.takeMalformedInput := by
  rw [step_starting h, if_neg hl]

/-- From a state that a step leaves as it is, a run of any length leaves it as it is (60 R204). -/
theorem runFor_of_step_eq_self {s : State} (h : step s = .next s) : ∀ k, runFor k s = .next s
  | 0 => runFor_zero s
  | k + 1 => by rw [runFor_succ, h, andThen_next, runFor_of_step_eq_self h k]

/-- At rest the machine goes on: by START, which always completes, or by a step that changes nothing (10_state R32). -/
theorem State.goesOn_of_ne_busy {s : State} (hp : s.phase ≠ .busy) : s.GoesOn := by
  by_cases hs : s.startPending = true
  · exact ⟨_, step_starting ⟨hp, hs⟩⟩
  · exact ⟨s, restChangesNothing s hp (Bool.eq_false_of_not_eq_true hs)⟩

/-- In an encode the machine goes on: with pixels left by a pixel step, else by FINISH (10_state R32, 60 R192). -/
theorem State.EncodeInv.goesOn {s : State} (h : s.EncodeInv) (hp : s.phase = .busy) : s.GoesOn := by
  obtain hlt | heq := Nat.lt_or_eq_of_le h.posBound
  · obtain ⟨t, hstep, -⟩ := h.exists_step ⟨hp, hlt⟩
    exact ⟨t, hstep⟩
  · exact ⟨s.finished, (step_eq_finish hp heq).trans (finish_eq_next.2 ⟨h.runBound.trans (by decide), rfl⟩)⟩

end Sys2Proof.Machine

/-! ### The obligations of 60_exceptions -/
namespace Sys2Proof.Machine

/-- Settles O42, by PHASE: at rest every step completes; in BUSY the invariant of the encode enables one that does. -/
theorem encodeNeverStops : Obligations.EncodeNeverStops := by
  have goesOn (s : State) (henc : s.phase = .busy → s.EncodeInv) : s.GoesOn := by
    by_cases hp : s.phase = .busy
    · exact (henc hp).goesOn hp
    · exact State.goesOn_of_ne_busy hp
  refine ⟨goesOn, fun s hi => goesOn s fun hp => ?_⟩
  obtain ⟨-, -, henc⟩ := (State.inv_busy hp).1 hi
  exact henc

/-- Settles O54: the taken exception leaves FAULT with no START waiting, which is a state at rest. -/
theorem malformedEncodeRestsInFault : Obligations.MalformedEncodeRestsInFault := by
  intro s k hs hl
  have hrest : step s.startCleared.takeMalformedInput = .next s.startCleared.takeMalformedInput :=
    restChangesNothing _ (by simp) (by simp)
  refine ⟨s.startCleared.takeMalformedInput, ?_, rfl, rfl, rfl, rfl, hrest⟩
  rw [runFor_succ, step_starting_of_malformed hs hl, andThen_next, runFor_of_step_eq_self hrest]

/-- Settles O34, by the state in which the exception is taken. -/
theorem malformedInputIsTaken : Obligations.MalformedInputIsTaken := by
  intro s hs hl
  exact ⟨_, step_starting_of_malformed hs hl, rfl, rfl, rfl, rfl, rfl, rfl, rfl, rfl⟩

end Sys2Proof.Machine

/-! ### Reset, and the host's moves at rest and in BUSY -/
namespace Sys2Proof.Machine

theorem State.inv_idle {s : State} (hp : s.phase = .idle) :
    s.Inv ↔ Memory.wf s.input = true ∧ s.out = [] ∧ s.err = .noError := by
  rw [State.Inv, hp]

section
variable {s : State}

/-- At rest with no START waiting the host has every move (70 R226). -/
theorem State.hostMove_of_rest (hp : s.phase ≠ .busy) (hs : s.startPending = false) (t : State) :
    s.hostMove t = .next t :=
  State.hostMove_eq_next.2 ⟨⟨hp, hs⟩, rfl⟩

/-- In BUSY the host has no move (70 R226, 93 U3). -/
theorem State.hostMove_of_busy (hp : s.phase = .busy) (t : State) : s.hostMove t = .refused .hostMayNot :=
  State.hostMove_eq_refused.2 ⟨fun ⟨hrest, _⟩ => hrest hp, rfl⟩

/-- A host move that leaves PHASE as it is and IN in canonical form is had at rest and keeps the machine ready. -/
theorem State.ready_of_hostMove {t u : State} (h : s.hostMove u = .next t) (hm : Memory.wf s.input = true)
    (hphase : u.phase = s.phase) (hwf : Memory.wf u.input = true) : s.Ready ∧ t.Ready := by
  obtain ⟨⟨hrest, -⟩, rfl⟩ := State.hostMove_eq_next.1 h
  exact ⟨⟨hrest, hm⟩, hphase ▸ hrest, hwf⟩

end

end Sys2Proof.Machine

/-! ### The obligations of 70_reset_and_hazards -/
namespace Sys2Proof.Machine

/-- Settles O51: no move writes PHASE, and those that write IN keep its canonical form. -/
theorem hostMovesKeepTheMachineReady : Obligations.HostMovesKeepTheMachineReady := by
  intro s t bytes a n b w h hm hmove
  obtain hload | hin | hlen | hsize | hstart := hmove
  · exact State.ready_of_hostMove hload hm rfl (Memory.wf_writeAll bytes _ 0 hm)
  · exact State.ready_of_hostMove hin hm rfl (Memory.wf_write hm a b)
  · exact State.ready_of_hostMove hlen hm rfl hm
  · exact State.ready_of_hostMove hsize hm rfl hm
  · exact State.ready_of_hostMove hstart hm rfl hm

/-- Settles O1: the registers as reset sets them; in IDLE no OUT is read. -/
theorem resetLeavesIdleAndEmpty : Obligations.ResetLeavesIdleAndEmpty :=
  ⟨rfl, rfl, rfl, rfl, hostReadOut_eq_none (by decide)⟩

/-- Settles O2: in IDLE the invariant asks for an empty OUT, ERR = 0 and IN in canonical form. -/
theorem resetMeetsTheInvariant : Obligations.ResetMeetsTheInvariant :=
  (State.inv_idle rfl).2 ⟨State.reset_wf, rfl, rfl⟩

/-- Settles O45: the five moves are one operation, had at rest with no START waiting and refused in BUSY. -/
theorem hostMovesAtRestOnly : Obligations.HostMovesAtRestOnly := by
  intro s bytes a n b w h
  refine ⟨fun hp hs => ?_, fun hp => ?_⟩
  · have had := State.hostMove_of_rest hp hs
    exact ⟨had _, had _, had _, had _, had _⟩
  · have refused := State.hostMove_of_busy hp
    exact ⟨refused _, refused _, refused _, refused _, refused _⟩

end Sys2Proof.Machine
